-- ==== Sys2Proof/Word.lean ====
section
/-! DEFINITION. The word types of the block. Every datapath value is an unsigned bit vector of the
stated width and no value is signed (00_scope.md R8); times are natural numbers (10_state.md R26). -/

namespace Sys2Proof

/-- A byte on the serial link, a line mask or a line index: 8 bits, bit `i` of weight 2^i (R7). -/
abbrev Byte := BitVec 8

/-- A pulse duration: 16 bits, unsigned, milliseconds (R18). -/
abbrev Half := BitVec 16

end Sys2Proof
end

