-- ==== Sys2Proof/Syntax.lean ====
section
/-! DEFINITION. The commands: one constructor per row of spec/opcode_table.json (30_encoding.md
R54, R55). An operand is held as assembled by R53: no operand is extended, scaled or shifted. -/

namespace Sys2Proof

/-- A complete command: an opcode and its arguments. -/
inductive Instr where
  /-- `set_pulse_duration d`, opcode 10, format F2 (R83). -/
  | setPulseDuration (d : Half)
  /-- `pulse_mask m`, opcode 11, format F1 (R84). -/
  | pulseMask (m : Byte)
  /-- `pulse_line i`, opcode 12, format F1 (R85). -/
  | pulseLine (i : Byte)
  /-- `set_mask_high m`, opcode 13, format F1 (R88). -/
  | setMaskHigh (m : Byte)
  /-- `set_mask_low m`, opcode 14, format F1 (R89). -/
  | setMaskLow (m : Byte)
  /-- `set_line_high i`, opcode 15, format F1 (R90). -/
  | setLineHigh (i : Byte)
  /-- `set_line_low i`, opcode 16, format F1 (R91). -/
  | setLineLow (i : Byte)
  /-- `get_button_mask`, opcode 20, format F0 (R92). -/
  | getButtonMask
  /-- An unknown opcode `o`, format F0 (R55, R94). -/
  | unknown (o : Byte)
  deriving DecidableEq, Repr

end Sys2Proof
end

