-- ==== Sys2Proof/WellFormed.lean ====
section
/-! DEFINITION. Which terms of `Instr` stand for a command. Every mask, index and duration is legal
(R53, R28); only the value of an unknown opcode is restricted (R55). -/

namespace Sys2Proof

/-- The 248 unknown opcode values: 0…9, 17…19 and 21…255 (R55). -/
def unknownOpcode (o : Byte) : Bool :=
  decide (o.toNat ≤ 9) || (decide (17 ≤ o.toNat) && decide (o.toNat ≤ 19)) ||
    decide (21 ≤ o.toNat)

/-- The one check there is: `unknown o` names an unknown value. -/
def Instr.wellFormed : Instr → Bool
  | .setPulseDuration _ => true
  | .pulseMask _ => true
  | .pulseLine _ => true
  | .setMaskHigh _ => true
  | .setMaskLow _ => true
  | .setLineHigh _ => true
  | .setLineLow _ => true
  | .getButtonMask => true
  | .unknown o => unknownOpcode o

end Sys2Proof
end

