-- ==== Sys2Proof/Decode.lean ====
section
/-! DEFINITION. From bytes to commands and back (30_encoding.md). The decoder is total on every list
of bytes and rejects, by name, only a list that ends too early: every byte value is an opcode. -/

namespace Sys2Proof

/-- A 16-bit argument from its bytes, the first one received being the low one (R32, R53). -/
def leHalf (lo hi : Byte) : Half := hi ++ lo

/-- The low byte of a 16-bit argument: sent first (R32, R52). -/
def loByte (d : Half) : Byte := d.extractLsb' 0 8

/-- The high byte of a 16-bit argument: sent second (R32, R52). -/
def hiByte (d : Half) : Byte := d.extractLsb' 8 8

/-- `ArgLen` (R56): how many argument bytes an opcode takes; `none` for an unknown opcode. -/
def argLen (b : Byte) : Option Nat :=
  if b = 10 then some 2
  else if b ∈ ([11, 12, 13, 14, 15, 16] : List Byte) then some 1
  else if b = 20 then some 0
  else none

/-- A command's length in bytes, `1 + ArgLen(b)` with `NONE` counting as 0 (R56). -/
def commandLength (b : Byte) : Nat := 1 + (argLen b).getD 0

/-- The operation an opcode selects, with its operand assembled (R53, R54, R73). -/
def instrOf (op a0 a1 : Byte) : Instr :=
  if op = 10 then .setPulseDuration (leHalf a0 a1)
  else if op = 11 then .pulseMask a0
  else if op = 12 then .pulseLine a0
  else if op = 13 then .setMaskHigh a0
  else if op = 14 then .setMaskLow a0
  else if op = 15 then .setLineHigh a0
  else if op = 16 then .setLineLow a0
  else if op = 20 then .getButtonMask
  else .unknown op

/-- Why a list of bytes is no complete command: the dispatcher would wait for more (R72, R108). -/
inductive DecodeError where
  /-- There is no opcode byte. -/
  | noOpcode
  /-- The opcode `op` takes `need` argument bytes and only `have_` follow. -/
  | missingArguments (op : Byte) (need have_ : Nat)
  deriving DecidableEq, Repr

/-- Read the first command of a byte sequence; answer it and the bytes after it (R49 to R56). -/
def decode (bytes : List Byte) : Except DecodeError (Instr × List Byte) :=
  match bytes with
  | [] => .error .noOpcode
  | op :: rest =>
    match argLen op, rest with
    | some 2, a0 :: a1 :: rest' => .ok (instrOf op a0 a1, rest')
    | some 1, a0 :: rest' => .ok (instrOf op a0 0, rest')
    | some (n + 1), rest' => .error (.missingArguments op (n + 1) rest'.length)
    | some 0, rest' => .ok (instrOf op 0 0, rest')
    | none, rest' => .ok (.unknown op, rest')

/-- The bytes of a command, in the order they are sent (R50 to R54). -/
def encode : Instr → List Byte
  | .setPulseDuration d => [0x0A, loByte d, hiByte d]
  | .pulseMask m => [0x0B, m]
  | .pulseLine i => [0x0C, i]
  | .setMaskHigh m => [0x0D, m]
  | .setMaskLow m => [0x0E, m]
  | .setLineHigh i => [0x0F, i]
  | .setLineLow i => [0x10, i]
  | .getButtonMask => [0x14]
  | .unknown o => [o]

/-- A line of the spec's own written form (R58): a command, or `.byte b`. -/
inductive SourceLine where
  | command (i : Instr)
  | byte (b : Byte)
  deriving DecidableEq, Repr

/-- The bytes of one line (R58). -/
def SourceLine.bytes : SourceLine → List Byte
  | .command i => encode i
  | .byte b => [b]

/-- A program encodes to the concatenation of its lines' bytes (R58). -/
def assemble (program : List SourceLine) : List Byte := program.flatMap SourceLine.bytes

/-- The mnemonic of a command (R54, R58). -/
def mnemonic : Instr → String
  | .setPulseDuration _ => "set_pulse_duration"
  | .pulseMask _ => "pulse_mask"
  | .pulseLine _ => "pulse_line"
  | .setMaskHigh _ => "set_mask_high"
  | .setMaskLow _ => "set_mask_low"
  | .setLineHigh _ => "set_line_high"
  | .setLineLow _ => "set_line_low"
  | .getButtonMask => "get_button_mask"
  | .unknown _ => "unknown"

/-- Byte `k` of an instruction given as the opcode table numbers its bits: byte 0 is bits 7..0, and
every bit from `nbits` up is 0. -/
def tableByte (nbits w k : Nat) : Byte := BitVec.ofNat 8 (w % 2 ^ nbits / 256 ^ k)

/-- The instruction the decoder reads from a word of the opcode table, laid out as the longest
command (3 bytes, R49). -/
def decodeTableWord (nbits w : Nat) : Option Instr :=
  match decode [tableByte nbits w 0, tableByte nbits w 1, tableByte nbits w 2] with
  | .ok (i, _) => some i
  | .error _ => none

end Sys2Proof
end

