-- ==== Sys2Proof/Config.lean ====
section
/-! DEFINITION. What is fixed when a block is built (00_scope.md R6, 10_state.md R15), and the free
values: what the spec calls a draw. -/

namespace Sys2Proof

/-- `MODE`: which controller runs (R2). -/
inductive Mode where
  | cmd
  | auto
  deriving DecidableEq, Repr

/-- `POL`: input polarity, uniform over the 8 inputs (R6, R61). -/
inductive Polarity where
  | activeHigh
  | activeLow
  deriving DecidableEq, Repr

/-- The OPEN parameters of R6. They are constants of one built block: nothing writes them (R15).
The model holds them beside the state, so that a statement about every state is a statement about
every build (log 1). -/
structure Config where
  /-- `MODE`. -/
  mode : Mode
  /-- `POL`. -/
  pol : Polarity
  /-- `TICKS_PER_MS`, at least 1. -/
  ticksPerMs : Nat
  /-- `PULSE_RES`, in ticks. -/
  pulseRes : Nat
  /-- `RX_DEPTH`, in bytes, at least 1. -/
  rxDepth : Nat
  /-- `TRIG_LINE`. -/
  trigLine : Fin 8
  /-- `AUTO_PULSE_MS`. -/
  autoPulseMs : Half
  /-- `REL_INTERVAL`, in ticks. -/
  relInterval : Nat
  /-- `AUTO_LOG`. -/
  autoLog : Bool
  /-- `OUT_PINS`: the lowest pin number of the 8 outputs; no rule of the block reads it (R39). -/
  outPins : Nat
  /-- `IN_PINS`: the lowest pin number of the 8 inputs. -/
  inPins : Nat
  deriving DecidableEq, Repr

namespace Config

/-- `N_OUT` and `N_IN` (R6). -/
abbrev lines : Nat := 8

/-- `DUR_RESET`, 5 ms (R6, R18). -/
def durReset : Half := 5

/-- `BAUD`: the rate of the serial link (R6, R37). The UART is outside the block (R14), and no rule
of the block reads it. -/
def baud : Nat := 115200

/-- The values R6 admits: the two lower bounds, and disjoint pin ranges. -/
def wf (c : Config) : Bool :=
  decide (1 ≤ c.ticksPerMs) && decide (1 ≤ c.rxDepth) &&
    (decide (c.outPins + lines ≤ c.inPins) || decide (c.inPins + lines ≤ c.outPins))

/-- The build `State.reset` uses. DESIGN CHOICE (log 1): the spec leaves the parameters OPEN; these
are the conventions of its own vectors (95_test_vectors.md §0, 45_debounce_fsm.md). -/
def reference : Config where
  mode := .cmd
  pol := .activeLow
  ticksPerMs := 1
  pulseRes := 0
  rxDepth := 16
  trigLine := 0
  autoPulseMs := 5
  relInterval := 10
  autoLog := false
  outPins := 0
  inPins := 8

/-- Output line `i` is the `i`-th pin of `OUT_PINS` in increasing order (R39). -/
def outPinOf (c : Config) (i : Nat) : Nat := c.outPins + i

/-- Input line `i` is the `i`-th pin of `IN_PINS` in increasing order (R39). -/
def inPinOf (c : Config) (i : Nat) : Nat := c.inPins + i

/-- Free value (log 6): from it the hold length of a pulse is drawn (R81). Indexed by `State.draws`. -/
opaque freeHold : Nat → Nat

/-- Free value (log 7): the levels that undriven inputs show at one sample (R64). -/
opaque freeLevels : Nat → Byte

/-- Free value (log 8): the bytes of one AUTO log line (R104). -/
opaque freeLogLine : Nat → List Byte

end Config

end Sys2Proof
end

