-- ==== Sys2Proof/Machine/State.lean ====
section
/-! DEFINITION. The state of the block (10_state.md), the moves of a run (41_dispatcher.md R76, R77),
the reasons a step can stop, and the state at power-up (70_reset_and_hazards.md R122). -/

namespace Sys2Proof.Machine

/-- A command whose argument bytes are being collected: the fields PHASE carries in ARGS (R19). -/
structure PartialCommand where
  /-- `OPC`, the opcode. -/
  opc : Byte
  /-- `NEED`, the number of argument bytes the opcode takes: 1 or 2. -/
  need : Nat
  /-- `ARGC`, the number received so far: 0 or 1. -/
  argc : Nat
  /-- `ARG0`, the first argument byte, once received. -/
  arg0 : Byte
  /-- `ARG1`, the second argument byte, once received. -/
  arg1 : Byte
  deriving DecidableEq, Repr

/-- `PHASE` (R19). The fields of ARGS exist in ARGS only, so no rule can read them elsewhere. -/
inductive Phase where
  /-- Waiting for an opcode byte; in AUTO mode, free to sample. -/
  | idle
  /-- An opcode has been received and its argument bytes are being collected. -/
  | args (p : PartialCommand)
  /-- A pulse is being held. -/
  | hold
  deriving DecidableEq, Repr

/-- `ARM` (R23). -/
inductive Arm where
  /-- Ready to fire on the next press. -/
  | armed
  /-- Waiting for a stable release. -/
  | disarmed
  deriving DecidableEq, Repr

/-- One move of a run: an environment event (R77), or the controller's turn (R76). -/
inductive Move where
  /-- `rx(b)`: byte `b` arrives. -/
  | rx (b : Byte)
  /-- `in(v)`: external circuits drive the input pins of `driven` to the levels `level`. -/
  | pins (level driven : Byte)
  /-- `tick`: the time base advances. -/
  | tick
  /-- `rst`: reset. -/
  | rst
  /-- The controller takes the step that is enabled, if one is. -/
  | ctrl
  deriving DecidableEq, Repr

/-- Everything the spec gives the block, with its build constants, its observation state and the
environment's side of its ports. Plain data. -/
structure State where
  /-- The build-time parameters (R15); never written. -/
  cfg : Config
  /-- `OUT`: the output latch (R17). -/
  out : Byte
  /-- `DUR`: the pulse duration in milliseconds (R18). -/
  dur : Half
  /-- `PHASE`, with OPC, NEED, ARGC, ARG0 and ARG1 in ARGS (R19). -/
  phase : Phase
  /-- `HMASK`: the lines the current pulse drives (R20). -/
  hmask : Byte
  /-- `DEADLINE`: when the current hold ends (R20). -/
  deadline : Nat
  /-- `RXQ`: received bytes not yet read, oldest first (R21). -/
  rxq : List Byte
  /-- `ARM` (R23). -/
  arm : Arm
  /-- `REL_VALID` (R24). -/
  relValid : Bool
  /-- `REL_START` (R24). -/
  relStart : Nat
  /-- `now`, in ticks (R26). -/
  now : Nat
  /-- `pullup_en` (R14, R61). -/
  pullupEn : Byte
  /-- `OUTTRACE`, oldest first (R27). -/
  outTrace : List (Nat × Byte)
  /-- `TXLOG`, oldest first (R22). -/
  txLog : List Byte
  /-- `RX_OVF` (R27). -/
  rxOvf : Bool
  /-- Environment: the levels on the driven input pins (R25). -/
  pinLevel : Byte
  /-- Environment: which input pins an external circuit drives (R64). -/
  pinDriven : Byte
  /-- Environment: the moves still to come, next first (R77, R80; log 2). -/
  agenda : List Move
  /-- The model's own: how many free values have been drawn (log 9). -/
  draws : Nat
  deriving DecidableEq, Repr

/-- Reasons the machine stops with a fault. There are none: the block raises no exception, no
condition is modelled as a fault and there is no stuck state (R107, R111; log 15). -/
inductive Fault
  deriving DecidableEq, Repr

/-- Reasons a step is refused. -/
inductive Refusal where
  /-- Raised by an arm of `exec` for an instruction that has no meaning yet: no arm is left that
  does so. Safe: the run stops. -/
  | notModelled (mnemonic : String)
  deriving DecidableEq, Repr

/-- What a step answers. -/
abbrev Result := Host.Outcome State Fault Refusal

/-- The pull-ups `configureInputs(POL)` sets (R61). -/
def pullups : Polarity → Byte
  | .activeLow => 0xFF
  | .activeHigh => 0x00

/-- Power-up of a block of build `c` (R122, R31), with the environment's levels and moves as given. -/
def State.powerUp (c : Config) (level driven : Byte) (agenda : List Move) : State where
  cfg := c
  out := 0x00
  dur := Config.durReset
  phase := .idle
  hmask := 0x00
  deadline := 0
  rxq := []
  arm := .armed
  relValid := false
  relStart := 0
  now := 0
  pullupEn := pullups c.pol
  outTrace := [(0, 0x00)]
  txLog := []
  rxOvf := false
  pinLevel := level
  pinDriven := driven
  agenda := agenda
  draws := 0

/-- The machine right after power-up, in the reference build (log 1), with nothing connected to the
inputs (log 10) and no move announced (log 2). -/
def State.reset : State := State.powerUp Config.reference 0xFF 0x00 []

end Sys2Proof.Machine
end

