-- ==== Sys2Proof/Machine/Flags.lean ====
section
/-! DEFINITION. The block has no arithmetic flags: every opcode rule says "Flags written: none". The
one-bit state it has is here: the arm flag (R23), the release timer's valid bit with its start time
(R24), and the sticky `RX_OVF` (R27). -/

namespace Sys2Proof.Machine.State

/-- `ARM <- a`. -/
def setArm (s : State) (a : Arm) : State := { s with arm := a }

/-- `REL_VALID <- 0`: the release timer is cleared to unset (R97, R99, R101). -/
def clearTimer (s : State) : State := { s with relValid := false }

/-- `REL_VALID <- 1; REL_START <- now` (R100). -/
def startTimer (s : State) : State := { s with relValid := true, relStart := s.now }

/-- `now - REL_START >= REL_INTERVAL`, exact arithmetic (R101, R8): no wrap and no cut-off at 0. -/
def timerRipe (s : State) : Bool := decide (s.relStart + s.cfg.relInterval ≤ s.now)

/-- `RX_OVF <- true`: a received byte was lost (R68). -/
def setOvf (s : State) : State := { s with rxOvf := true }

end Sys2Proof.Machine.State
end

