-- ==== Sys2Proof/Machine/Operands.lean ====
section
/-! DEFINITION. The operand forms (30_encoding.md R53). A mask operand selects the lines of its set
bits and every value is legal; a line index operand names a line for 0…7 and none for 8…255. The
16-bit duration is assembled in `Sys2Proof.leHalf`. -/

namespace Sys2Proof.Machine

/-- `1 << i`, the mask with only bit `i` set, for `i` in 0…7 (R8). -/
def lineBit (i : Nat) : Byte := 1#8 <<< i

/-- A line index argument names a line exactly for the values 0…7 (R28, R53). -/
def namesLine (i : Byte) : Bool := decide (i.toNat < Config.lines)

/-- The mask of the line an index argument names. -/
def lineMask (i : Byte) : Byte := lineBit i.toNat

end Sys2Proof.Machine
end

