-- ==== Sys2Proof/Machine/Ops.lean ====
section
/-! DEFINITION. The named operations over the block's state: the pseudocode primitives of
00_scope.md R9, the GPIO operations of 40_gpio_lines.md, and reset (70_reset_and_hazards.md R121).
The block takes no exceptions (R107, R115); reset is its only asynchronous change of control. -/

namespace Sys2Proof.Machine.State

/-! ## Plain updates -/

/-- `DUR <- d`. -/
def setDur (s : State) (d : Half) : State := { s with dur := d }

/-- `PHASE <- p`. -/
def setPhase (s : State) (p : Phase) : State := { s with phase := p }

/-- `HMASK <- m; DEADLINE <- t` (R81). -/
def setHold (s : State) (m : Byte) (t : Nat) : State := { s with hmask := m, deadline := t }

/-- `RXQ <- q`. -/
def setRxq (s : State) (q : List Byte) : State := { s with rxq := q }

/-- `now <- t`. -/
def setNow (s : State) (t : Nat) : State := { s with now := t }

/-- `in_pin` takes new levels (R77). -/
def setPins (s : State) (level driven : Byte) : State :=
  { s with pinLevel := level, pinDriven := driven }

/-- The moves still to come. -/
def setAgenda (s : State) (a : List Move) : State := { s with agenda := a }

/-- One free value has been used: the next one is another (log 9). -/
def drawn (s : State) : State := { s with draws := s.draws + 1 }

/-! ## Outputs (R60, R62, R65) -/

/-- `OutWrite(v)`: all 8 outputs change at one instant, and the write is recorded (R62). -/
def outWrite (s : State) (v : Byte) : State :=
  { s with out := v, outTrace := s.outTrace ++ [(s.now, v)] }

/-- `writeLine(index, level)`: one line through `OutWrite`; an index of 8 or more writes nothing and
records nothing (R62). -/
def writeLine (s : State) (index : Byte) (level : Bool) : State :=
  if namesLine index then
    s.outWrite (if level then s.out ||| lineMask index else s.out &&& ~~~ (lineMask index))
  else s

/-- `out_pin`, equal to `OUT` at all times (R14, R17). -/
def outPin (s : State) : Byte := s.out

/-- The level on a physical pin of `OUT_PINS`; `none` for any other pin (R39). -/
def outPinLevel (s : State) (pin : Nat) : Option Bool :=
  if s.cfg.outPins ≤ pin ∧ pin < s.cfg.outPins + Config.lines then
    some (s.outPin.getLsbD (pin - s.cfg.outPins))
  else none

/-! ## Inputs (R61, R63, R64) -/

/-- The level of a pin that no external circuit drives: 1 by the pull-up with ACTIVE_LOW, a fresh
draw with ACTIVE_HIGH (R64). With every pin driven no draw is looked at. -/
def floatLevels (s : State) : Byte :=
  match s.cfg.pol with
  | .activeLow => 0xFF
  | .activeHigh => if s.pinDriven = 0xFF then 0x00 else Config.freeLevels s.draws

/-- `in_pin`: the level of each input pin at this instant (R25, R64). -/
def inPin (s : State) : Byte :=
  (s.pinLevel &&& s.pinDriven) ||| (s.floatLevels &&& ~~~ s.pinDriven)

/-- The polarity-corrected input mask: bit `i` is 1 when line `i` is pressed (R63). -/
def inputMask (s : State) : Byte :=
  match s.cfg.pol with
  | .activeLow => ~~~ s.inPin
  | .activeHigh => s.inPin

/-- `SampleInputs()`: the mask, all 8 pins at one instant; the block's state is not touched, and the
next sample meets fresh draws (R63, R64). -/
def sampleInputs (s : State) : Byte × State := (s.inputMask, s.drawn)

/-! ## Serial link (R9, R22, R68) -/

/-- Append bytes to `TXLOG` (R22). -/
def txAppend (s : State) (bs : List Byte) : State := { s with txLog := s.txLog ++ bs }

/-- `TxPush(b)` (R22). -/
def txPush (s : State) (b : Byte) : State := s.txAppend [b]

/-- `EmitLogLine()`: a finite byte sequence that is a draw (R104). -/
def emitLogLine (s : State) : State := (s.txAppend (Config.freeLogLine s.draws)).drawn

/-- `RxPop()`: the oldest byte and the state without it; `none` where `RXQ` is empty (R68). -/
def rxPop (s : State) : Option (Byte × State) :=
  match s.rxq with
  | [] => none
  | b :: rest => some (b, s.setRxq rest)

/-! ## Time (R81) -/

/-- `HoldTicks(d)`: a draw in `[max(0, d·TICKS_PER_MS − PULSE_RES), d·TICKS_PER_MS + PULSE_RES]`;
exact where `PULSE_RES = 0` (R81; log 6). -/
def holdTicks (s : State) (d : Half) : Nat :=
  let exact := d.toNat * s.cfg.ticksPerMs
  let low := exact - s.cfg.pulseRes
  if s.cfg.pulseRes = 0 then exact
  else low + Config.freeHold s.draws % (exact + s.cfg.pulseRes - low + 1)

/-- A `FallStep` is due, and time cannot pass: `PHASE = HOLD` and `now ≥ DEADLINE` (R78, R82). -/
def fallDue (s : State) : Bool := decide (s.phase = .hold) && decide (s.deadline ≤ s.now)

/-! ## Reset (R60, R61, R121) -/

/-- `configureOutputs()` (R60). -/
def configureOutputs (s : State) : State := s.outWrite 0x00

/-- `configureInputs(POL)` (R61). -/
def configureInputs (s : State) : State := { s with pullupEn := pullups s.cfg.pol }

/-- `Reset()`: `now`, `TXLOG`, `RX_OVF`, the trace before it and the build stay (R121). -/
def resetBlock (s : State) : State :=
  let s := s.configureOutputs.configureInputs
  let s := ((s.setDur Config.durReset).setPhase .idle).setHold 0x00 0
  let s := (s.setRxq []).setArm .armed
  { s with relValid := false, relStart := 0 }

end Sys2Proof.Machine.State
end

