-- ==== Sys2Proof/Machine/Pulse.lean ====
section
/-! DEFINITION. The pulse generator and opcodes 10, 11 and 12 (42_pulse_generator.md). -/

namespace Sys2Proof.Machine

/-- `PulseStart(m, d)`: every line of `m` goes high at one instant and the hold begins (R81). -/
def State.pulseStart (s : State) (m : Byte) (d : Half) : State :=
  let h := s.holdTicks d
  let s := s.drawn.outWrite (s.out ||| m)
  (s.setHold m (s.now + h)).setPhase .hold

/-- `FallStep()`: every line of `HMASK` goes low at one instant; in AUTO mode with `AUTO_LOG` the log
line follows (R82, R104). -/
def State.fallStep (s : State) : State :=
  let s := (s.outWrite (s.out &&& ~~~ s.hmask)).setPhase .idle
  if s.cfg.mode = .auto ∧ s.cfg.autoLog = true then s.emitLogLine else s

/-- `SetPulseDuration(d)` (R83). -/
def execSetPulseDuration (d : Half) (s : State) : Result := .next (s.setDur d)

/-- `PulseMask(m)`: the mask 0x00 is held too, with no line affected (R84). -/
def execPulseMask (m : Byte) (s : State) : Result := .next (s.pulseStart m s.dur)

/-- `PulseLine(i)`: as `PulseMask(1 << i)` for `i` in 0…7; no effect and no hold for 8…255 (R85). -/
def execPulseLine (i : Byte) (s : State) : Result :=
  .next (if namesLine i then s.pulseStart (lineMask i) s.dur else s)

end Sys2Proof.Machine
end

