-- ==== Sys2Proof/Machine/Debounce.lean ====
section
/-! DEFINITION. The debounce and re-arm state machine of AUTO mode (45_debounce_fsm.md). -/

namespace Sys2Proof.Machine.State

/-- Fire: disarm, clear the release timer, pulse `TRIG_LINE` for `AUTO_PULSE_MS` (R97). -/
def fire (s : State) : State :=
  (s.setArm .disarmed).clearTimer.pulseStart (lineBit s.cfg.trigLine) s.cfg.autoPulseMs

/-- What a sampled mask does while DISARMED (R99, R100, R101): the start of the timer and its test
are exclusive. -/
def watchRelease (s : State) (mask : Byte) : State :=
  if mask ≠ 0x00 then s.clearTimer
  else if s.relValid = false then s.startTimer
  else if s.timerRipe then (s.setArm .armed).clearTimer
  else s

/-- `SampleStep()` (R96). -/
def sampleStep (s : State) : State :=
  let (mask, s) := s.sampleInputs
  match s.arm with
  | .armed => if mask ≠ 0x00 then s.fire else s
  | .disarmed => s.watchRelease mask

end Sys2Proof.Machine.State
end

