-- ==== Sys2Proof/Machine/Input.lean ====
section
/-! DEFINITION. Opcode 20 and the unknown opcodes (44_input_opcodes.md). -/

namespace Sys2Proof.Machine

/-- `GetButtonMask()`: sample all 8 inputs at one instant and send the mask (R92). -/
def execGetButtonMask (s : State) : Result :=
  let (mask, s) := s.sampleInputs
  .next (s.txPush mask)

/-- An unknown opcode: the byte has been popped, and nothing else happens (R94). -/
def execUnknown (_o : Byte) (s : State) : Result := .next s

end Sys2Proof.Machine
end

