-- ==== Sys2Proof/Machine/Level.lean ====
section
/-! DEFINITION. The level-setting opcodes 13 to 16 (43_level_opcodes.md). They use neither the pulse
generator nor `DUR`. -/

namespace Sys2Proof.Machine

/-- `SetMaskHigh(m)` (R88). -/
def execSetMaskHigh (m : Byte) (s : State) : Result := .next (s.outWrite (s.out ||| m))

/-- `SetMaskLow(m)` (R89). -/
def execSetMaskLow (m : Byte) (s : State) : Result := .next (s.outWrite (s.out &&& ~~~ m))

/-- `SetLineHigh(i)`; an index of 8…255 is ignored (R90). -/
def execSetLineHigh (i : Byte) (s : State) : Result := .next (s.writeLine i true)

/-- `SetLineLow(i)`; an index of 8…255 is ignored (R91). -/
def execSetLineLow (i : Byte) (s : State) : Result := .next (s.writeLine i false)

end Sys2Proof.Machine
end

