-- ==== Sys2Proof/Machine/Dispatch.lean ====
section
/-! DEFINITION. `Execute` (41_dispatcher.md R73): one arm per command. -/

namespace Sys2Proof.Machine

def exec (i : Instr) (s : State) : Host.Outcome State Fault Refusal :=
  match i with
  | .setPulseDuration d => Sys2Proof.Machine.execSetPulseDuration d s
  | .pulseMask m => Sys2Proof.Machine.execPulseMask m s
  | .pulseLine k => Sys2Proof.Machine.execPulseLine k s
  | .setMaskHigh m => Sys2Proof.Machine.execSetMaskHigh m s
  | .setMaskLow m => Sys2Proof.Machine.execSetMaskLow m s
  | .setLineHigh k => Sys2Proof.Machine.execSetLineHigh k s
  | .setLineLow k => Sys2Proof.Machine.execSetLineLow k s
  | .getButtonMask => Sys2Proof.Machine.execGetButtonMask s
  | .unknown o => Sys2Proof.Machine.execUnknown o s

end Sys2Proof.Machine
end

