-- ==== Sys2Proof/Machine/Controller.lean ====
section
/-! DEFINITION. The opcode dispatcher's framing and the controller's steps (41_dispatcher.md). -/

namespace Sys2Proof.Machine

/-! ## Which step is enabled (R69, R76, R82, R96) -/

/-- `DispatchStep`: `MODE = CMD`, `PHASE ∈ {IDLE, ARGS}` and `RXQ` non-empty (R69). -/
def State.dispatchEnabled (s : State) : Bool :=
  decide (s.cfg.mode = .cmd) && decide (s.phase ≠ .hold) && decide (s.rxq ≠ [])

/-- `FallStep`: `PHASE = HOLD` and `now ≥ DEADLINE` (R82). -/
def State.fallEnabled (s : State) : Bool := s.fallDue

/-- `SampleStep`: `MODE = AUTO` and `PHASE = IDLE` (R96). -/
def State.sampleEnabled (s : State) : Bool :=
  decide (s.cfg.mode = .auto) && decide (s.phase = .idle)

/-! ## The dispatcher (R69 to R73) -/

/-- `Execute(op, a0, a1)` (R73). -/
def execute (op a0 a1 : Byte) (s : State) : Result := exec (instrOf op a0 a1) s

/-- `ARGS` is entered: `OPC <- b; NEED <- n; ARGC <- 0` (R70). ARG0 and ARG1 hold nothing yet; the
bytes written here are read by no rule before they are received (log 11). -/
def PartialCommand.start (b : Byte) (n : Nat) : PartialCommand :=
  { opc := b, need := n, argc := 0, arg0 := 0x00, arg1 := 0x00 }

/-- An argument byte is stored and `ARGC` counts it (R71). -/
def PartialCommand.receive (p : PartialCommand) (b : Byte) : PartialCommand :=
  if p.argc = 0 then { p with arg0 := b, argc := p.argc + 1 }
  else { p with arg1 := b, argc := p.argc + 1 }

/-- `OpcodeByte(b)` (R70). -/
def opcodeByte (b : Byte) (s : State) : Result :=
  match argLen b with
  | none => exec (.unknown b) s
  | some 0 => execute b 0x00 0x00 s
  | some (n + 1) => .next (s.setPhase (.args (.start b (n + 1))))

/-- `ArgumentByte(b)`: the command executes in the step that takes its last argument byte (R71). -/
def argumentByte (p : PartialCommand) (b : Byte) (s : State) : Result :=
  let p := p.receive b
  if p.argc = p.need then execute p.opc p.arg0 p.arg1 (s.setPhase .idle)
  else .next (s.setPhase (.args p))

/-- `DispatchStep()`: one byte is taken from `RXQ`; none while a pulse is held (R69). -/
def dispatchStep (s : State) : Result :=
  match s.rxPop with
  | none => .next s
  | some (b, popped) =>
    match s.phase with
    | .idle => opcodeByte b popped
    | .args p => argumentByte p b popped
    | .hold => .next s

/-! ## The controller's turn (R76) -/

/-- The controller takes the step that is enabled. Where none is, it waits: that is no fault and no
final state (R69, R108). -/
def controllerStep (s : State) : Result :=
  if s.dispatchEnabled then dispatchStep s
  else if s.fallEnabled then .next s.fallStep
  else if s.sampleEnabled then .next s.sampleStep
  else .next s

/-! ## Where the next command is fetched -/

/-- The command `b0 b1 b2` (as many of them as `ArgLen` of `b0` asks for) stands as the very next to
run: CMD mode, all its bytes but the last already received, the last one at the head of `RXQ`, and
the controller's turn (log 14). -/
def State.placeCommand (s : State) (b0 b1 b2 : Byte) : State :=
  let s := { s with cfg := { s.cfg with mode := .cmd } }
  let s := s.setAgenda (.ctrl :: s.agenda)
  match argLen b0 with
  | some 1 => (s.setPhase (.args (.start b0 1))).setRxq (b1 :: s.rxq.tail)
  | some 2 => (s.setPhase (.args ((PartialCommand.start b0 2).receive b1))).setRxq (b2 :: s.rxq.tail)
  | _ => (s.setPhase .idle).setRxq (b0 :: s.rxq.tail)

end Sys2Proof.Machine
end

