-- ==== Sys2Proof/Machine/Events.lean ====
section
/-! DEFINITION. The environment's events and the order of moves (41_dispatcher.md R68, R75 to R80;
70_reset_and_hazards.md R121). -/

namespace Sys2Proof.Machine

/-- `rx(b)`: queued in CMD mode, or lost with `RX_OVF` set where `RXQ` is full (R68); discarded in
AUTO mode (R75). -/
def State.receive (s : State) (b : Byte) : State :=
  match s.cfg.mode with
  | .auto => s
  | .cmd => if s.rxq.length < s.cfg.rxDepth then s.setRxq (s.rxq ++ [b]) else s.setOvf

/-- `tick`, where it is enabled (R78). -/
def State.tickOnce (s : State) : State := s.setNow (s.now + 1)

/-- The next move of the run.
* A `tick` asked for while a fall is due waits until the fall has happened (R78; log 4).
* A controller's turn with no step enabled changes nothing (log 5).
* With no move announced the machine runs free: the controller has its turn, then time advances,
  and so on, which is weakly fair and lets time grow without bound (R79; log 3). -/
def State.nextMove (s : State) : Result :=
  match s.agenda with
  | [] => controllerStep (s.setAgenda [.tick])
  | .ctrl :: rest => controllerStep (s.setAgenda rest)
  | .tick :: rest => .next (if s.fallDue then s.fallStep else (s.setAgenda rest).tickOnce)
  | .rx b :: rest => .next ((s.setAgenda rest).receive b)
  | .pins level driven :: rest => .next ((s.setAgenda rest).setPins level driven)
  | .rst :: rest => .next (s.setAgenda rest).resetBlock

end Sys2Proof.Machine
end

