-- ==== Sys2Proof/Machine/Step.lean ====
section
/-! DEFINITION. One step of a run: one controller step or one environment event (41_dispatcher.md
R76, R77, R80). -/

namespace Sys2Proof.Machine

/-- The step: the next move. -/
def step (s : State) : Host.Outcome State Fault Refusal := s.nextMove

/-- `s` with the instruction of a table word placed where the dispatcher reads it next: `step` of the
result runs exactly it (log 14). -/
def State.withFetchWord (s : State) (nbits w : Nat) : State :=
  s.placeCommand (tableByte nbits w 0) (tableByte nbits w 1) (tableByte nbits w 2)

end Sys2Proof.Machine
end

