-- ==== Sys2Proof/Machine/Run.lean ====
section
/-! DEFINITION. The runs of the block (41_dispatcher.md R79, R80): infinite sequences of moves from
power-up, every move enabled where it is made, weakly fair and non-Zeno. A run brings its own order of
moves, so its states announce none: `agenda` is empty throughout. -/

namespace Sys2Proof.Machine

/-- What R79 asks fairness of: the three kinds of controller step (R76), and `tick`. -/
inductive ProgressKind where
  | dispatch
  | fall
  | sample
  | tick
  deriving DecidableEq, Repr

/-- A state and a move for each index: `move k` leads from `state k` to `state (k + 1)`. -/
structure Run where
  state : Nat → State
  move : Nat → Move

namespace State

/-- Some controller step is enabled (R76). -/
def ctrlEnabled (s : State) : Bool := s.dispatchEnabled || s.fallEnabled || s.sampleEnabled

/-- `tick` is enabled but for a fall that is due (R78). -/
def tickEnabled (s : State) : Bool := !s.fallDue

/-- Which moves can be made (R76 to R78): every event but `tick` at any time. -/
def admits (s : State) : Move → Bool
  | .rx _ => true
  | .pins _ _ => true
  | .tick => s.tickEnabled
  | .rst => true
  | .ctrl => s.ctrlEnabled

/-- The step that makes the move `m`. -/
def make (s : State) (m : Move) : Result := step (s.setAgenda [m])

/-- The finite sequences of moves that can be made from `s`, with the state they lead to: the finite
prefixes of runs. -/
def play (s : State) : List Move → Option State
  | [] => some s
  | m :: rest =>
    if s.admits m then
      match s.make m with
      | .next t => t.play rest
      | .fault _ => none
      | .refused _ => none
    else none

end State

namespace ProgressKind

/-- Where a step of this kind is enabled. -/
def enabled : ProgressKind → State → Bool
  | .dispatch, s => s.dispatchEnabled
  | .fall, s => s.fallEnabled
  | .sample, s => s.sampleEnabled
  | .tick, s => s.tickEnabled

/-- The move that takes it: a controller step is the controller's turn. -/
def move : ProgressKind → Move
  | .dispatch => .ctrl
  | .fall => .ctrl
  | .sample => .ctrl
  | .tick => .tick

end ProgressKind

namespace Run

/-- At index `k` a step of kind `p` is taken. At most one kind of controller step is enabled (R76), so
the controller's turn takes the one that is. -/
def takes (r : Run) (p : ProgressKind) (k : Nat) : Prop :=
  p.enabled (r.state k) = true ∧ r.move k = p.move

/-- R80: from the power-up state of a build R6 admits, with any levels on the pins. -/
def startsAtPowerUp (r : Run) : Prop :=
  ∃ c level driven, c.wf = true ∧ r.state 0 = State.powerUp c level driven []

/-- R69, R76 to R78: every move is enabled where it is made, and leads to the next state. -/
def lawful (r : Run) : Prop :=
  ∀ k, (r.state k).admits (r.move k) = true ∧
    (r.state k).make (r.move k) = .next (r.state (k + 1))

/-- R79: a step of any kind that stays enabled from some point on is eventually taken. -/
def weaklyFair (r : Run) : Prop :=
  ∀ (p : ProgressKind) (n : Nat), (∀ k, n ≤ k → p.enabled (r.state k) = true) →
    ∃ k, n ≤ k ∧ r.takes p k

/-- R79: only finitely many moves are made before the next tick, at every point of the run (log 18). -/
def nonZeno (r : Run) : Prop := ∀ n, ∃ k, n ≤ k ∧ r.move k = .tick

/-- R80: the runs that are the block's behaviour. -/
def admitted (r : Run) : Prop := r.startsAtPowerUp ∧ r.lawful ∧ r.weaklyFair ∧ r.nonZeno

/-- The first `k` moves. -/
def firstMoves (r : Run) (k : Nat) : List Move := (List.range k).map r.move

end Run

end Sys2Proof.Machine
end

