-- ==== Sys2Proof/Safety.lean ====
section
/-! DEFINITION. The terms claims are stated in: runs, whose turn it is, and what holds of every state
a run reaches. The block has no fault (60_exceptions.md R107), so a safe run is one whose states keep
these invariants and whose link lost no byte (10_state.md R27). -/

namespace Sys2Proof.Machine

namespace State

/-! ## Runs -/

/-- The state after `k` moves (R80); `none` would be a run that stopped. -/
def after : Nat → State → Option State
  | 0, s => some s
  | k + 1, s =>
    match step s with
    | .next t => after k t
    | .fault _ => none
    | .refused _ => none

/-- The next move is the controller's turn: announced, or by free running (log 3). -/
def ctrlTurn (s : State) : Bool :=
  match s.agenda with
  | [] => true
  | .ctrl :: _ => true
  | .rx _ :: _ => false
  | .pins _ _ :: _ => false
  | .tick :: _ => false
  | .rst :: _ => false

/-- The state in which the controller's turn runs: that move is no longer to come. -/
def turnTaken (s : State) : State :=
  { s with agenda := match s.agenda with
      | [] => [.tick]
      | _ :: rest => rest }

/-- No reset is announced. -/
def noReset (s : State) : Prop := Move.rst ∉ s.agenda

/-- No byte of the host was lost (R27): the premise of claims about framing. -/
def cleanLink (s : State) : Prop := s.rxOvf = false

/-- What a state is apart from the observation state of R27. -/
def withoutObservation (s : State) : State :=
  { s with outTrace := [], txLog := [], rxOvf := false }

/-- A sample depends on no draw: pull-ups on, or every input driven (R64). -/
def inputsSteady (s : State) : Prop := s.cfg.pol = .activeLow ∨ s.pinDriven = 0xFF

end State

/-- The bytes of the current command received so far (R19). -/
def Phase.bytes : Phase → List Byte
  | .idle => []
  | .args p => p.opc :: [p.arg0, p.arg1].take p.argc
  | .hold => []

/-- `H` is a hold length that `HoldTicks(d)` may draw in build `c` (R81). -/
def admitsHold (c : Config) (d : Half) (h : Nat) : Prop :=
  d.toNat * c.ticksPerMs - c.pulseRes ≤ h ∧ h ≤ d.toNat * c.ticksPerMs + c.pulseRes

namespace State

/-! ## Invariants -/

/-- R19: in ARGS, NEED is what the opcode takes and ARGC counts fewer bytes than that. -/
def Framed (s : State) : Prop :=
  ∀ p, s.phase = .args p → argLen p.opc = some p.need ∧ p.argc < p.need

/-- R78, R86: a hold never outlasts its deadline, and its lines are high throughout. -/
def Holding (s : State) : Prop :=
  s.phase = .hold → s.now ≤ s.deadline ∧ s.hmask &&& s.out = s.hmask

/-- R21: `RXQ` holds at most `RX_DEPTH` bytes. -/
def QueueFits (s : State) : Prop := s.rxq.length ≤ s.cfg.rxDepth

/-- R98, R24: the release timer is unset while ARMED, and started in the past. -/
def TimerOk (s : State) : Prop :=
  (s.arm = .armed → s.relValid = false) ∧ (s.relValid = true → s.relStart ≤ s.now)

/-- R61: the pull-ups are those of the polarity. -/
def PullupsOk (s : State) : Prop := s.pullupEn = pullups s.cfg.pol

/-- The invariant of the block. -/
structure Inv (s : State) : Prop where
  build : s.cfg.wf = true
  framed : s.Framed
  holding : s.Holding
  queue : s.QueueFits
  timer : s.TimerOk
  pull : s.PullupsOk

/-- R29: the state a mode does not use keeps its reset value. -/
def UnusedAtReset (s : State) : Prop :=
  match s.cfg.mode with
  | .cmd => s.arm = .armed ∧ s.relValid = false ∧ s.relStart = 0
  | .auto => s.dur = Config.durReset ∧ s.rxq = [] ∧ s.rxOvf = false ∧ ∀ p, s.phase ≠ .args p

/-- R95: in AUTO mode every line is low but for `TRIG_LINE` during its pulse. -/
def OnlyTriggerLine (s : State) : Prop :=
  s.cfg.mode = .auto →
    (s.phase = .idle ∧ s.out = 0x00) ∨
    (s.phase = .hold ∧ s.hmask = lineBit s.cfg.trigLine ∧ s.out = lineBit s.cfg.trigLine)

/-- R17, R26: `OUTTRACE` ends with the value of `OUT`, its times never decrease and none is later
than `now`. -/
def TraceOk (s : State) : Prop :=
  (∃ earlier t, s.outTrace = earlier ++ [(t, s.out)] ∧ t ≤ s.now) ∧
    s.outTrace.Pairwise (fun a b => a.1 ≤ b.1)

end State

end Sys2Proof.Machine
end

