-- ==== Sys2Proof/Certificates/Slice0/Obligations.lean ====
section
/-! DEFINITION. The statements for the provers. A docstring names the rules of spec/ a statement
formalises; a rule the spec marks as its own decision or inference is named with its D number, or
with "derived". "log n" is notes/assumptions/n.md. -/

open Sys2Proof Sys2Proof.Machine

/-! ## Encoding (30_encoding.md) -/

/-- Decoding the bytes of a well-formed command gives the command back and leaves the bytes after it
(R49 to R53). -/
def Obligations.DecodeOfEncodedCommand : Prop :=
  ∀ (i : Instr) (rest : List Byte), i.wellFormed = true → decode (encode i ++ rest) = .ok (i, rest)

/-- What the decoder reads is well formed, and its bytes are exactly the ones consumed: every byte
sequence has one reading (R49, R55). -/
def Obligations.EncodeOfDecodedCommand : Prop :=
  ∀ (bytes : List Byte) (i : Instr) (rest : List Byte),
    decode bytes = .ok (i, rest) → i.wellFormed = true ∧ encode i ++ rest = bytes

/-- The decoder rejects a byte sequence exactly when bytes are missing, and says which (R56, R108). -/
def Obligations.DecodeRejectsOnlyMissingBytes : Prop :=
  ∀ (bytes : List Byte) (e : DecodeError),
    decode bytes = .error e ↔
      (bytes = [] ∧ e = .noOpcode) ∨
      ∃ op rest n, bytes = op :: rest ∧ argLen op = some n ∧ rest.length < n ∧
        e = .missingArguments op n rest.length

/-- `ArgLen` on all 256 byte values (R56, which the spec derives from R50 to R55). -/
def Obligations.ArgLenOfEveryByte : Prop :=
  ∀ b : Byte,
    (b.toNat = 10 → argLen b = some 2) ∧
    (11 ≤ b.toNat ∧ b.toNat ≤ 16 → argLen b = some 1) ∧
    (b.toNat = 20 → argLen b = some 0) ∧
    (b.toNat ≤ 9 ∨ (17 ≤ b.toNat ∧ b.toNat ≤ 19) ∨ 21 ≤ b.toNat → argLen b = none)

/-- The opcode table, row by row, for all argument values (R54). The words of the last line are
written out from the table's encodings. -/
def Obligations.OpcodeTableWordsDecode : Prop :=
  (∀ (lo hi : Byte) (rest : List Byte),
    decode (0x0A :: lo :: hi :: rest) = .ok (.setPulseDuration (hi ++ lo), rest)) ∧
  (∀ (a : Byte) (rest : List Byte),
    decode (0x0B :: a :: rest) = .ok (.pulseMask a, rest) ∧
    decode (0x0C :: a :: rest) = .ok (.pulseLine a, rest) ∧
    decode (0x0D :: a :: rest) = .ok (.setMaskHigh a, rest) ∧
    decode (0x0E :: a :: rest) = .ok (.setMaskLow a, rest) ∧
    decode (0x0F :: a :: rest) = .ok (.setLineHigh a, rest) ∧
    decode (0x10 :: a :: rest) = .ok (.setLineLow a, rest)) ∧
  (∀ rest : List Byte, decode (0x14 :: rest) = .ok (.getButtonMask, rest)) ∧
  decodeTableWord 24 0x12340A = some (.setPulseDuration 0x1234) ∧
  decodeTableWord 16 0x810B = some (.pulseMask 0x81) ∧
  decodeTableWord 8 0x14 = some .getButtonMask ∧
  decodeTableWord 8 0x11 = some (.unknown 0x11)

/-- R32: a 16-bit argument is sent least significant byte first, and only opcode 10 takes one. -/
def Obligations.DurationIsLittleEndian : Prop :=
  (∀ b1 b2 : Byte, decode [0x0A, b1, b2] = .ok (.setPulseDuration (leHalf b1 b2), []) ∧
    (leHalf b1 b2).toNat = b2.toNat * 256 + b1.toNat) ∧
  ∀ (op : Byte), argLen op = some 2 ↔ op = 0x0A

/-! ## The commands' results -/

/-- R83: `set_pulse_duration d` replaces `DUR`, for every `d`, and changes nothing else. -/
def Obligations.SetPulseDurationResult : Prop :=
  ∀ (lo hi : Byte) (d : Half) (s : State),
    decode [0x0A, lo, hi] = .ok (.setPulseDuration (leHalf lo hi), []) ∧
    exec (.setPulseDuration d) s = .next { s with dur := d }

/-- R81, R84: `pulse_mask m` raises every line of `m`, keeps the others, and starts a hold whose
length is within `PULSE_RES` of `DUR` ms. It does so for every mask, 0x00 among them: that the empty
mask is held too is the spec's decision D12, and the drawn length its D5 (log 6). -/
def Obligations.PulseMaskResult : Prop :=
  ∀ (m : Byte) (s : State), ∃ (h : Nat) (t : State),
    admitsHold s.cfg s.dur h ∧ exec (.pulseMask m) s = .next t ∧
    (∀ i < 8, t.out.getLsbD i = (s.out.getLsbD i || m.getLsbD i)) ∧
    t = { s with out := t.out, outTrace := s.outTrace ++ [(s.now, t.out)], hmask := m,
                 deadline := s.now + h, phase := .hold, draws := s.draws + 1 }

/-- R85: `pulse_line i` pulses line `i` alone for `i` in 0…7. For 8…255 it has no effect and there is
no hold (D13). -/
def Obligations.PulseLineResult : Prop :=
  ∀ (i : Byte) (s : State),
    (i.toNat < 8 → ∃ (h : Nat) (t : State),
      admitsHold s.cfg s.dur h ∧ exec (.pulseLine i) s = .next t ∧
      (∀ j < 8, t.out.getLsbD j = (s.out.getLsbD j || decide (j = i.toNat))) ∧
      (∀ j < 8, t.hmask.getLsbD j = decide (j = i.toNat)) ∧
      t = { s with out := t.out, outTrace := s.outTrace ++ [(s.now, t.out)], hmask := t.hmask,
                   deadline := s.now + h, phase := .hold, draws := s.draws + 1 }) ∧
    (8 ≤ i.toNat → exec (.pulseLine i) s = .next s)

/-- R59: `pulse_line i` for `i` in 0…7 has the effect of `pulse_mask (1 << i)`, and is an opcode of
its own. -/
def Obligations.PulseLineActsAsPulseMask : Prop :=
  ∀ (i : Byte) (s : State), i.toNat < 8 →
    exec (.pulseLine i) s = exec (.pulseMask (1#8 <<< i.toNat)) s ∧
    encode (.pulseLine i) ≠ encode (.pulseMask (1#8 <<< i.toNat))

/-- R88: `set_mask_high m` sets the lines of `m`, keeps the others, and records one entry. -/
def Obligations.SetMaskHighResult : Prop :=
  ∀ (m : Byte) (s : State),
    decode [0x0D, m] = .ok (.setMaskHigh m, []) ∧
    ∃ t, exec (.setMaskHigh m) s = .next t ∧
      (∀ i < 8, t.out.getLsbD i = (s.out.getLsbD i || m.getLsbD i)) ∧
      t = { s with out := t.out, outTrace := s.outTrace ++ [(s.now, t.out)] }

/-- R89: `set_mask_low m` clears the lines of `m`, keeps the others, and records one entry. -/
def Obligations.SetMaskLowResult : Prop :=
  ∀ (m : Byte) (s : State),
    decode [0x0E, m] = .ok (.setMaskLow m, []) ∧
    ∃ t, exec (.setMaskLow m) s = .next t ∧
      (∀ i < 8, t.out.getLsbD i = (s.out.getLsbD i && !m.getLsbD i)) ∧
      t = { s with out := t.out, outTrace := s.outTrace ++ [(s.now, t.out)] }

/-- R90: `set_line_high i` sets line `i`; an index of 8…255 has no effect and records nothing. -/
def Obligations.SetLineHighResult : Prop :=
  ∀ (i : Byte) (s : State),
    decode [0x0F, i] = .ok (.setLineHigh i, []) ∧
    (i.toNat < 8 → ∃ t, exec (.setLineHigh i) s = .next t ∧
      (∀ j < 8, t.out.getLsbD j = (s.out.getLsbD j || decide (j = i.toNat))) ∧
      t = { s with out := t.out, outTrace := s.outTrace ++ [(s.now, t.out)] }) ∧
    (8 ≤ i.toNat → exec (.setLineHigh i) s = .next s)

/-- R91: `set_line_low i` clears line `i`; an index of 8…255 has no effect and records nothing. -/
def Obligations.SetLineLowResult : Prop :=
  ∀ (i : Byte) (s : State),
    decode [0x10, i] = .ok (.setLineLow i, []) ∧
    (i.toNat < 8 → ∃ t, exec (.setLineLow i) s = .next t ∧
      (∀ j < 8, t.out.getLsbD j = (s.out.getLsbD j && !decide (j = i.toNat))) ∧
      t = { s with out := t.out, outTrace := s.outTrace ++ [(s.now, t.out)] }) ∧
    (8 ≤ i.toNat → exec (.setLineLow i) s = .next s)

/-- R92: `get_button_mask` samples the inputs (all at one instant, D15) and sends the sample as one
byte. A driven line gives its level, inverted with ACTIVE_LOW; an open line with ACTIVE_LOW gives 0
(R63, R64). Nothing else changes but the count of draws (log 9). -/
def Obligations.GetButtonMaskResult : Prop :=
  ∀ s : State,
    decode [0x14] = .ok (.getButtonMask, []) ∧
    ∃ m : Byte, m = s.sampleInputs.1 ∧
      exec .getButtonMask s =
        .next { s with txLog := s.txLog ++ [m], draws := s.draws + 1 } ∧
      (∀ i < 8, s.pinDriven.getLsbD i = true →
        m.getLsbD i = (s.pinLevel.getLsbD i != decide (s.cfg.pol = .activeLow))) ∧
      (∀ i < 8, s.pinDriven.getLsbD i = false → s.cfg.pol = .activeLow → m.getLsbD i = false)

/-- R94: an unknown opcode is consumed and discarded: nothing but `RXQ` changes. -/
def Obligations.UnknownOpcodeDiscarded : Prop :=
  ∀ (u : Byte) (s : State) (rest : List Byte),
    (u.toNat ≤ 9 ∨ (17 ≤ u.toNat ∧ u.toNat ≤ 19) ∨ 21 ≤ u.toNat) →
    decode (u :: rest) = .ok (.unknown u, rest) ∧
    exec (.unknown u) s = .next s ∧
    (s.cfg.mode = .cmd → s.phase = .idle → s.rxq = u :: rest → s.ctrlTurn = true →
      step s = .next { s.turnTaken with rxq := rest })

/-- R93: opcode 20 is the only command that sends a byte. -/
def Obligations.OnlyOpcode20Answers : Prop :=
  ∀ (i : Instr) (s : State), ∃ t, exec i s = .next t ∧
    (i ≠ .getButtonMask → t.txLog = s.txLog) ∧
    (i = .getButtonMask → ∃ b, t.txLog = s.txLog ++ [b])

/-- R110: an index of 8…255 given to opcodes 12, 15 or 16 has no effect. Every mask value is in
range: opcodes 11, 13 and 14 write `OUT` whatever the mask. -/
def Obligations.OutOfRangeIndexIgnored : Prop :=
  (∀ (i : Byte) (s : State), 8 ≤ i.toNat →
    exec (.pulseLine i) s = .next s ∧ exec (.setLineHigh i) s = .next s ∧
    exec (.setLineLow i) s = .next s) ∧
  ∀ (m : Byte) (s : State), ∃ t1 t2 t3,
    exec (.pulseMask m) s = .next t1 ∧ t1.outTrace = s.outTrace ++ [(s.now, s.out ||| m)] ∧
    exec (.setMaskHigh m) s = .next t2 ∧ t2.outTrace = s.outTrace ++ [(s.now, s.out ||| m)] ∧
    exec (.setMaskLow m) s = .next t3 ∧ t3.outTrace = s.outTrace ++ [(s.now, s.out &&& ~~~ m)]

/-- R38 (derived): applying a level opcode twice leaves `OUT` as applying it once does. -/
def Obligations.LevelOpcodesIdempotent : Prop :=
  ∀ (a : Byte) (s : State),
    ∀ i ∈ [Instr.setMaskHigh a, .setMaskLow a, .setLineHigh a, .setLineLow a],
      ∃ t u, exec i s = .next t ∧ exec i t = .next u ∧ u.out = t.out

/-- R38 (derived), where a sample meets no draw (R64): opcode 20 answers the same byte again as long
as the inputs do not change, whatever other command runs in between. -/
def Obligations.ButtonMaskRepeats : Prop :=
  ∀ (s t u v : State) (i : Instr) (b : Byte), s.inputsSteady →
    exec .getButtonMask s = .next t → t.txLog = s.txLog ++ [b] →
    exec i t = .next u → exec .getButtonMask u = .next v → v.txLog = u.txLog ++ [b]

/-- R130 (derived), R83: of two durations set one after the other the later counts, never a blend:
the pulse that follows is the one that would follow the second alone. -/
def Obligations.LaterDurationCounts : Prop :=
  ∀ (d1 d2 : Half) (m : Byte) (s : State), ∃ a b c,
    exec (.setPulseDuration d1) s = .next a ∧ exec (.setPulseDuration d2) a = .next b ∧
    exec (.setPulseDuration d2) s = .next c ∧
    exec (.pulseMask m) b = exec (.pulseMask m) c ∧
    ∃ h t, admitsHold s.cfg d2 h ∧ exec (.pulseMask m) b = .next t ∧ t.deadline = s.now + h

/-- R67 (derived), R25: of the commands, only opcode 20 looks at the input pins: any other command
gives the same state whether the pins change before it or after it. The other consumer of a sample,
the AUTO controller (R67), is no command. -/
def Obligations.OfCommandsOnlyOpcode20ReadsInputs : Prop :=
  ∀ (i : Instr) (s : State) (level driven : Byte), i ≠ .getButtonMask →
    ∃ t, exec i s = .next t ∧ exec i (s.setPins level driven) = .next (t.setPins level driven)

/-! ## The dispatcher (41_dispatcher.md) -/

/-- R69 to R73: where the bytes received of a command and the byte at the head of `RXQ` decode to
the command `i`, the controller's turn runs exactly `i`, with the byte taken from `RXQ` and PHASE
back at IDLE. -/
def Obligations.StepRunsDecodedCommand : Prop :=
  ∀ (s : State) (b : Byte) (rest : List Byte) (i : Instr),
    s.Framed → s.cfg.mode = .cmd → s.phase ≠ .hold → s.rxq = b :: rest → s.ctrlTurn = true →
    decode (s.phase.bytes ++ [b]) = .ok (i, []) →
    step s = exec i { s.turnTaken with rxq := rest, phase := .idle }

/-- R70, R71: where those bytes are a command that lacks arguments, the controller's turn keeps them:
PHASE is ARGS with the opcode, what it needs, and the bytes received; nothing else changes. -/
def Obligations.StepCollectsArguments : Prop :=
  ∀ (s : State) (b : Byte) (rest : List Byte) (op : Byte) (n k : Nat),
    s.Framed → s.cfg.mode = .cmd → s.phase ≠ .hold → s.rxq = b :: rest → s.ctrlTurn = true →
    decode (s.phase.bytes ++ [b]) = .error (.missingArguments op n k) →
    ∃ p, step s = .next { s.turnTaken with rxq := rest, phase := .args p } ∧
      p.opc = op ∧ p.need = n ∧ p.argc = k ∧ Phase.bytes (.args p) = s.phase.bytes ++ [b]

/-- R69 to R73, R41, R42: the bytes of a well-formed command at the head of `RXQ`, taken one a turn,
execute exactly that command, in the turn of the last byte, and leave the bytes after it. -/
def Obligations.CommandBytesExecute : Prop :=
  ∀ (i : Instr) (s : State) (rest : List Byte) (later : List Move),
    i.wellFormed = true → s.cfg.mode = .cmd → s.phase = .idle → s.rxq = encode i ++ rest →
    s.agenda = List.replicate (encode i).length Move.ctrl ++ later →
    ∃ t, exec i { s with rxq := rest, agenda := later } = .next t ∧
      s.after (encode i).length = some t

/-- R69: a turn takes a byte exactly where the dispatch step is enabled; with `RXQ` empty it waits;
while a pulse is held no move takes a byte, except that a reset drops them all. -/
def Obligations.ByteTakenExactlyWhenEnabled : Prop :=
  (∀ s t : State, s.ctrlTurn = true → step s = .next t →
    ((∃ b, s.rxq = b :: t.rxq) ↔ s.cfg.mode = .cmd ∧ s.phase ≠ .hold ∧ s.rxq ≠ [])) ∧
  (∀ s : State, s.ctrlTurn = true → s.cfg.mode = .cmd → s.phase ≠ .hold → s.rxq = [] →
    step s = .next s.turnTaken) ∧
  (∀ s t : State, s.phase = .hold → s.agenda.head? ≠ some .rst → step s = .next t →
    s.rxq <+: t.rxq)

/-- R72, R108: a partial command waits for as long as no further byte arrives and no reset comes. There
is no timeout and it is not cancelled: after any number of moves it is still there, and no output,
duration or response has changed. -/
def Obligations.PartialCommandWaits : Prop :=
  ∀ (k : Nat) (s t : State) (p : PartialCommand),
    s.cfg.mode = .cmd → s.phase = .args p → s.rxq = [] → s.noReset →
    (∀ b, Move.rx b ∉ s.agenda) → s.after k = some t →
    t.phase = .args p ∧ t.rxq = [] ∧ t.out = s.out ∧ t.dur = s.dur ∧ t.txLog = s.txLog ∧
      t.outTrace = s.outTrace

/-- R74: a command that starts in IDLE ends in IDLE or HOLD, and the fall brings HOLD back to IDLE. -/
def Obligations.CommandEndsReady : Prop :=
  ∀ (i : Instr) (s : State), s.phase = .idle → ∃ t, exec i s = .next t ∧
    (t.phase = .idle ∨ t.phase = .hold) ∧ t.fallStep.phase = .idle

/-- R126 (derived): no byte completes every partial command harmlessly: for each byte there is a
partial command, of an opcode that takes one argument, which the controller's turn that takes the
byte completes in CMD mode, and an output changes. -/
def Obligations.NoFillerByteIsHarmless : Prop :=
  ∀ b : Byte, ∃ (op : Byte) (s t : State),
    argLen op = some 1 ∧ s.Inv ∧ s.cfg.mode = .cmd ∧ s.ctrlTurn = true ∧
    s.phase = .args (.start op 1) ∧ s.rxq = [b] ∧
    step s = .next t ∧ t.rxq = [] ∧ t.out ≠ s.out

/-- R76 (D3): at most one kind of controller step is enabled in any state. -/
def Obligations.AtMostOneStepKindEnabled : Prop :=
  ∀ s : State,
    ¬ (s.dispatchEnabled = true ∧ s.fallEnabled = true) ∧
    ¬ (s.dispatchEnabled = true ∧ s.sampleEnabled = true) ∧
    ¬ (s.fallEnabled = true ∧ s.sampleEnabled = true)

/-- R68 (D8): a byte that arrives is queued behind the others, or lost with `RX_OVF` set where `RXQ`
is full; in AUTO mode it is discarded without a trace (R75, D9). -/
def Obligations.ByteArrival : Prop :=
  ∀ (s : State) (b : Byte) (later : List Move), s.agenda = .rx b :: later →
    (s.cfg.mode = .cmd → s.rxq.length < s.cfg.rxDepth →
      step s = .next { s with agenda := later, rxq := s.rxq ++ [b] }) ∧
    (s.cfg.mode = .cmd → s.cfg.rxDepth ≤ s.rxq.length →
      step s = .next { s with agenda := later, rxOvf := true }) ∧
    (s.cfg.mode = .auto → step s = .next { s with agenda := later })

/-- R77 (D3): an input change writes the pin levels and nothing of the block. -/
def Obligations.InputChange : Prop :=
  ∀ (s : State) (level driven : Byte) (later : List Move),
    s.agenda = .pins level driven :: later →
    step s = .next { s with agenda := later, pinLevel := level, pinDriven := driven }

/-- R78 (D4): `tick` adds 1 to `now`, except while a fall is due: then the fall comes first. That the
tick waits for it, and is not lost, is the model's choice (log 4). -/
def Obligations.TickWaitsForFall : Prop :=
  ∀ (s : State) (later : List Move), s.agenda = .tick :: later →
    (¬ (s.phase = .hold ∧ s.deadline ≤ s.now) →
      step s = .next { s with agenda := later, now := s.now + 1 }) ∧
    (s.phase = .hold ∧ s.deadline ≤ s.now →
      ∃ t, step s = .next t ∧ t.now = s.now ∧ t.phase = .idle ∧ t.agenda = s.agenda ∧
        t.out = s.out &&& ~~~ s.hmask)

/-- R26 (D2), R78: `now` changes only by a `tick` that is enabled, and then by exactly 1. A reset does
not change it. -/
def Obligations.NowChangesOnlyByTick : Prop :=
  ∀ s t : State, step s = .next t →
    t.now = s.now ∨
    (t.now = s.now + 1 ∧ s.agenda.head? = some .tick ∧ ¬ (s.phase = .hold ∧ s.deadline ≤ s.now))

/-- R107, R111 (D8, D27): no move ends in a fault or a refusal, from any state whatever. -/
def Obligations.EveryStepAnswersNext : Prop :=
  ∀ (k : Nat) (s : State), ∃ t, s.after k = some t

/-- R79 (D3): time advances. However many moves are announced, at most three more than those are made
before the next tick. The bound is that of the model's free running (log 3). -/
def Obligations.TimeAdvances : Prop :=
  ∀ s : State, ∃ k t, k ≤ s.agenda.length + 3 ∧ s.after k = some t ∧ s.now < t.now

/-! ## Outputs and the pulse (40_gpio_lines.md, 42_pulse_generator.md) -/

/-- R66 (derived), R17: a move that changes `OUT` makes one recorded write of the closed list: reset,
the fall of a pulse, the fire of the AUTO sample, or the command whose last byte the dispatch step
takes, with the value that source gives. Any other move leaves `OUT` and `OUTTRACE` as they are. -/
def Obligations.OutWriteMux : Prop :=
  ∀ s t : State, s.Framed → step s = .next t →
    (t.out = s.out ∧ t.outTrace = s.outTrace) ∨
    (t.outTrace = s.outTrace ++ [(s.now, t.out)] ∧
      ((s.agenda.head? = some .rst ∧ t.out = 0x00) ∨
       ((s.ctrlTurn = true ∨ s.agenda.head? = some .tick) ∧ s.phase = .hold ∧ s.deadline ≤ s.now ∧
         t.out = s.out &&& ~~~ s.hmask) ∨
       (s.ctrlTurn = true ∧ s.sampleEnabled = true ∧ s.arm = .armed ∧ s.inputMask ≠ 0 ∧
         t.out = s.out ||| (1#8 <<< s.cfg.trigLine.val)) ∨
       (s.ctrlTurn = true ∧ s.dispatchEnabled = true ∧ ∃ b rest i, s.rxq = b :: rest ∧
         decode (s.phase.bytes ++ [b]) = .ok (i, []) ∧
         ((∃ m, (i = .pulseMask m ∨ i = .setMaskHigh m) ∧ t.out = s.out ||| m) ∨
          (∃ m, i = .setMaskLow m ∧ t.out = s.out &&& ~~~ m) ∨
          (∃ k : Byte, k.toNat < 8 ∧ (i = .pulseLine k ∨ i = .setLineHigh k) ∧
            t.out = s.out ||| (1#8 <<< k.toNat)) ∨
          (∃ k : Byte, k.toNat < 8 ∧ i = .setLineLow k ∧
            t.out = s.out &&& ~~~ (1#8 <<< k.toNat))))))

/-- R18: `DUR` changes only by opcode 10, in the dispatch step of its last byte and to the value of its
two argument bytes, or by a reset. -/
def Obligations.DurWriters : Prop :=
  ∀ s t : State, s.Framed → step s = .next t → t.dur ≠ s.dur →
    (s.agenda.head? = some .rst ∧ t.dur = 5) ∨
    (s.ctrlTurn = true ∧ s.dispatchEnabled = true ∧ ∃ p b rest, s.phase = .args p ∧
      s.rxq = b :: rest ∧ p.opc = 0x0A ∧ p.argc + 1 = p.need ∧ t.dur = leHalf p.arg0 b)

/-- R22 (D10), R67 (derived): `TXLOG` only grows; by one byte in the dispatch step that takes opcode 20
in CMD mode, or by a log line at a fall in AUTO mode with `AUTO_LOG` (R104, D24). -/
def Obligations.TransmitSources : Prop :=
  ∀ s t : State, s.Framed → step s = .next t →
    t.txLog = s.txLog ∨
    (s.dispatchEnabled = true ∧ s.ctrlTurn = true ∧ s.phase = .idle ∧
      s.rxq.head? = some 0x14 ∧ ∃ b, t.txLog = s.txLog ++ [b]) ∨
    (s.cfg.mode = .auto ∧ s.cfg.autoLog = true ∧ s.phase = .hold ∧ s.deadline ≤ s.now ∧
      ∃ line, t.txLog = s.txLog ++ line)

/-- R82: the fall is enabled exactly in HOLD at or after the deadline. It lowers the lines of `HMASK`,
keeps the others, and returns to IDLE; in AUTO mode with `AUTO_LOG` it also appends a log line.
Before the deadline a turn changes nothing. -/
def Obligations.FallStepResult : Prop :=
  ∀ s : State, s.phase = .hold → s.ctrlTurn = true →
    (s.now < s.deadline → step s = .next s.turnTaken) ∧
    (s.deadline ≤ s.now → ∃ t line, step s = .next t ∧
      (∀ i < 8, t.out.getLsbD i = (s.out.getLsbD i && !s.hmask.getLsbD i)) ∧
      t = { s.turnTaken with out := t.out, outTrace := s.outTrace ++ [(s.now, t.out)],
                             phase := .idle, txLog := s.txLog ++ line, draws := t.draws } ∧
      (¬ (s.cfg.mode = .auto ∧ s.cfg.autoLog = true) → line = [] ∧ t.draws = s.draws))

/-- R86 (derived), R82: a hold runs to completion. As long as no reset comes, after any number of
moves either it is still held, with the outputs and the trace as they were and time not past the
deadline, or the first entry after the rise is its fall, at the deadline exactly. -/
def Obligations.PulseRunsToCompletion : Prop :=
  ∀ (k : Nat) (s t : State), s.phase = .hold → s.now ≤ s.deadline → s.noReset →
    s.after k = some t →
    (t.phase = .hold ∧ t.out = s.out ∧ t.hmask = s.hmask ∧ t.deadline = s.deadline ∧
      t.outTrace = s.outTrace ∧ t.now ≤ s.deadline) ∨
    s.outTrace ++ [(s.deadline, s.out &&& ~~~ s.hmask)] <+: t.outTrace

/-- R82, R74: a hold ends, by itself, at its deadline. Nothing outside is needed but time; the bound
on the number of moves is that of the model's free running (log 3). -/
def Obligations.HoldEndsAtDeadline : Prop :=
  ∀ s : State, s.phase = .hold → s.now ≤ s.deadline → s.agenda = [] →
    ∃ k t, k ≤ 2 * (s.deadline - s.now) + 1 ∧ s.after k = some t ∧ t.phase = .idle ∧
      t.now = s.deadline ∧ t.out = s.out &&& ~~~ s.hmask ∧
      t.outTrace = s.outTrace ++ [(s.deadline, s.out &&& ~~~ s.hmask)]

/-- R42, R103 (D21): while a pulse is held and its fall is not due, no move changes anything but time,
the queue, `RX_OVF`, the pins and the agenda, unless it is a reset. -/
def Obligations.HoldBlocksEverythingElse : Prop :=
  ∀ s t : State, s.phase = .hold → s.now < s.deadline → s.agenda.head? ≠ some .rst →
    step s = .next t →
    t = { s with now := t.now, rxq := t.rxq, rxOvf := t.rxOvf, pinLevel := t.pinLevel,
                 pinDriven := t.pinDriven, agenda := t.agenda }

/-- R62 (D6): `writeLine` sets one line and records it; an index of 8 or more does nothing. -/
def Obligations.WriteLineResult : Prop :=
  ∀ (s : State) (i : Byte) (level : Bool),
    (i.toNat < 8 →
      (∀ j < 8, (s.writeLine i level).out.getLsbD j =
        if j = i.toNat then level else s.out.getLsbD j) ∧
      s.writeLine i level = { s with
        out := (s.writeLine i level).out,
        outTrace := s.outTrace ++ [(s.now, (s.writeLine i level).out)] }) ∧
    (8 ≤ i.toNat → s.writeLine i level = s)

/-- R39 (D37), R17: output line `i` drives the `i`-th pin of `OUT_PINS`, and no input pin is driven. -/
def Obligations.OutputPinMapping : Prop :=
  ∀ (s : State) (i : Nat), s.cfg.wf = true → i < 8 →
    s.outPinLevel (s.cfg.outPinOf i) = some (s.out.getLsbD i) ∧
    s.outPinLevel (s.cfg.inPinOf i) = none

/-! ## Inputs (40_gpio_lines.md) -/

/-- R63: bit `i` of a sample is 1 when line `i` is pressed: high with ACTIVE_HIGH, grounded with
ACTIVE_LOW, where an open line reads as not pressed. The sample changes no state of the block (the
count of draws is the model's own, log 9). -/
def Obligations.SampleIsPolarityCorrected : Prop :=
  ∀ s : State,
    (∀ i < 8, s.pinDriven.getLsbD i = true →
      s.sampleInputs.1.getLsbD i =
        match s.cfg.pol with
        | .activeHigh => s.pinLevel.getLsbD i
        | .activeLow => !s.pinLevel.getLsbD i) ∧
    (∀ i < 8, s.pinDriven.getLsbD i = false → s.cfg.pol = .activeLow →
      s.sampleInputs.1.getLsbD i = false) ∧
    s.sampleInputs.2 = { s with draws := s.draws + 1 }

/-! ## The debounce and re-arm state machine (45_debounce_fsm.md) -/

/-- R102 (derived from R97 to R101, with D17, D19, D20, D23): the whole transition table of the sample
step. A fire pulses `TRIG_LINE` for `AUTO_PULSE_MS`, not for `DUR`. -/
def Obligations.SampleStepTable : Prop :=
  ∀ s : State, s.cfg.mode = .auto → s.phase = .idle → s.ctrlTurn = true →
    (s.arm = .armed → s.inputMask ≠ 0 → ∃ h, admitsHold s.cfg s.cfg.autoPulseMs h ∧
      step s = .next { s.turnTaken with
        arm := .disarmed, relValid := false, out := s.out ||| (1#8 <<< s.cfg.trigLine.val),
        outTrace := s.outTrace ++ [(s.now, s.out ||| (1#8 <<< s.cfg.trigLine.val))],
        hmask := 1#8 <<< s.cfg.trigLine.val, deadline := s.now + h, phase := .hold,
        draws := s.draws + 2 }) ∧
    (s.arm = .armed → s.inputMask = 0 →
      step s = .next { s.turnTaken with draws := s.draws + 1 }) ∧
    (s.arm = .disarmed → s.inputMask ≠ 0 →
      step s = .next { s.turnTaken with relValid := false, draws := s.draws + 1 }) ∧
    (s.arm = .disarmed → s.inputMask = 0 → s.relValid = false →
      step s = .next { s.turnTaken with relValid := true, relStart := s.now,
                                        draws := s.draws + 1 }) ∧
    (s.arm = .disarmed → s.inputMask = 0 → s.relValid = true →
      (s.now : Int) - s.relStart ≥ s.cfg.relInterval →
      step s = .next { s.turnTaken with arm := .armed, relValid := false,
                                        draws := s.draws + 1 }) ∧
    (s.arm = .disarmed → s.inputMask = 0 → s.relValid = true →
      (s.now : Int) - s.relStart < s.cfg.relInterval →
      step s = .next { s.turnTaken with draws := s.draws + 1 })

/-- R105 (derived): a fire happens exactly at a sample with a non-zero mask taken while ARMED, and it
is the only way into HOLD in AUTO mode. -/
def Obligations.FireExactlyWhenArmedAndPressed : Prop :=
  ∀ s t : State, s.cfg.mode = .auto → (∀ p, s.phase ≠ .args p) → step s = .next t →
    ((s.arm = .armed ∧ t.arm = .disarmed) ↔
      (s.ctrlTurn = true ∧ s.phase = .idle ∧ s.arm = .armed ∧ s.inputMask ≠ 0)) ∧
    ((s.phase = .idle ∧ t.phase = .hold) ↔
      (s.ctrlTurn = true ∧ s.phase = .idle ∧ s.arm = .armed ∧ s.inputMask ≠ 0))

/-- R105 (derived): however long a press is held, it fires no second time. From DISARMED, with the
pressed inputs unchanged and no reset, every later state is DISARMED, and the trace gains nothing but
the fall of a pulse that was being held. -/
def Obligations.HeldPressFiresOnce : Prop :=
  ∀ (k : Nat) (s t : State),
    s.cfg.mode = .auto → (∀ p, s.phase ≠ .args p) → s.arm = .disarmed → s.inputsSteady →
    s.inputMask ≠ 0 → s.noReset → (∀ l d, Move.pins l d ∉ s.agenda) → s.after k = some t →
    t.arm = .disarmed ∧
      (t.outTrace = s.outTrace ∨
       (s.phase = .hold ∧ ∃ time, t.outTrace = s.outTrace ++ [(time, s.out &&& ~~~ s.hmask)]))

/-- R106 (derived), R131: after a fire the block is not ARMED again, and so does not fire again, before
the end of its pulse plus `REL_INTERVAL`, whatever the inputs do in between. -/
def Obligations.NoRearmBeforeReleaseInterval : Prop :=
  ∀ (k : Nat) (s t : State),
    s.cfg.mode = .auto → s.phase = .hold → s.now ≤ s.deadline → s.arm = .disarmed →
    s.relValid = false → s.noReset → s.after k = some t → t.arm = .armed →
    s.deadline + s.cfg.relInterval ≤ t.now

/-! ## Reset (70_reset_and_hazards.md) -/

/-- R121 (D25), R123 (derived): reset from any state: outputs low and recorded, `DUR` 5, the partial
command, the hold and the queue dropped, ARMED, the timer unset. `now`, `TXLOG`, the trace before it,
`RX_OVF` and the build stay. -/
def Obligations.ResetResult : Prop :=
  ∀ (s : State) (later : List Move), s.agenda = .rst :: later →
    step s = .next { s with
      agenda := later, out := 0x00, outTrace := s.outTrace ++ [(s.now, 0x00)],
      pullupEn := (match s.cfg.pol with
        | .activeLow => 0xFF
        | .activeHigh => 0x00),
      dur := 5, phase := .idle, hmask := 0x00, deadline := 0, rxq := [], arm := .armed,
      relValid := false, relStart := 0 }

/-- R122, R31 (D25): the state at power-up, in every build. The levels on the pins and the moves to
come are the environment's; `State.reset` is this state in the build of log 1. -/
def Obligations.PowerUpState : Prop :=
  (∀ (c : Config) (level driven : Byte) (moves : List Move),
    let s := State.powerUp c level driven moves
    s.cfg = c ∧ s.out = 0x00 ∧ s.dur = 5 ∧ s.phase = .idle ∧ s.hmask = 0x00 ∧ s.deadline = 0 ∧
    s.rxq = [] ∧ s.arm = .armed ∧ s.relValid = false ∧ s.relStart = 0 ∧ s.now = 0 ∧
    s.pullupEn = (match c.pol with
      | .activeLow => 0xFF
      | .activeHigh => 0x00) ∧
    s.txLog = [] ∧ s.outTrace = [(0, 0x00)] ∧ s.rxOvf = false) ∧
  ∃ c level driven moves, c.wf = true ∧ State.reset = State.powerUp c level driven moves

/-! ## What holds of every state a run reaches -/

/-- R19, R21, R24, R61, R78, R86, R98: from every state that meets the invariant, every move gives a
state that meets it. -/
def Obligations.InvariantKept : Prop :=
  ∀ s t : State, s.Inv → step s = .next t → t.Inv

/-- The invariant holds at power-up, in every build R6 admits, and at `State.reset`. -/
def Obligations.InvariantAtPowerUp : Prop :=
  (∀ (c : Config) (level driven : Byte) (moves : List Move), c.wf = true →
    (State.powerUp c level driven moves).Inv) ∧
  State.reset.Inv

/-- R29 (D7): the state the other mode owns keeps its reset value: at power-up, and along every move. -/
def Obligations.UnusedStateKeepsReset : Prop :=
  (∀ (c : Config) (level driven : Byte) (moves : List Move),
    (State.powerUp c level driven moves).UnusedAtReset) ∧
  ∀ s t : State, s.UnusedAtReset → step s = .next t → t.UnusedAtReset

/-- R95, R82: in AUTO mode the seven lines other than `TRIG_LINE` stay low from power-up onwards, and
`TRIG_LINE` is high exactly during its pulse. -/
def Obligations.AutoDrivesOnlyTriggerLine : Prop :=
  (∀ (c : Config) (level driven : Byte) (moves : List Move),
    (State.powerUp c level driven moves).OnlyTriggerLine) ∧
  ∀ s t : State, s.OnlyTriggerLine → step s = .next t → t.OnlyTriggerLine

/-- R17, R26 (D2): the trace ends with the value on the pins and its times never decrease: at power-up,
and along every move, a reset among them. -/
def Obligations.OutTraceOrdered : Prop :=
  (∀ (c : Config) (level driven : Byte) (moves : List Move),
    (State.powerUp c level driven moves).TraceOk) ∧
  ∀ s t : State, s.TraceOk → step s = .next t → t.TraceOk

/-- R15 (D7): no move writes the build-time constants. -/
def Obligations.BuildConstantsNeverChange : Prop :=
  ∀ (k : Nat) (s t : State), s.after k = some t → t.cfg = s.cfg

/-- R27 (D8): no rule of the block reads the observation state: two states that differ in it alone
differ in it alone after any number of moves. -/
def Obligations.ObservationStateNeverRead : Prop :=
  ∀ (k : Nat) (s s' t : State), s.withoutObservation = s'.withoutObservation →
    s.after k = some t →
    ∃ t', s'.after k = some t' ∧ t.withoutObservation = t'.withoutObservation

/-! ## What every run comes to (41_dispatcher.md R79, R80) -/

/-- R79, R80 (D3), with R74, R82 and R96: on every admitted run, whatever the order of its moves and
however often bytes, input changes and resets recur:
* time grows beyond every bound;
* every hold goes on until it falls, at its deadline exactly, or until a reset ends it;
* in CMD mode the bytes in `RXQ` stay, in order, until the dispatch step takes the first or a reset
  drops them;
* in AUTO mode the inputs are sampled again and again. -/
def Obligations.EveryAdmittedRunProgresses : Prop :=
  ∀ r : Run, r.admitted →
    (∀ time, ∃ k, time ≤ (r.state k).now) ∧
    (∀ n, (r.state n).phase = .hold →
      ∃ k, n ≤ k ∧ (∀ j, n ≤ j → j ≤ k → (r.state j).phase = .hold) ∧
        (r.move k = .rst ∨
          (r.takes .fall k ∧ (r.state k).now = (r.state n).deadline ∧
            (r.state (k + 1)).phase = .idle ∧
            (r.state (k + 1)).out = (r.state n).out &&& ~~~ (r.state n).hmask))) ∧
    (∀ n, (r.state n).cfg.mode = .cmd → (r.state n).rxq ≠ [] →
      ∃ k, n ≤ k ∧ (∀ j, n ≤ j → j ≤ k → (r.state n).rxq <+: (r.state j).rxq) ∧
        (r.move k = .rst ∨ r.takes .dispatch k)) ∧
    (∀ n, (r.state n).cfg.mode = .auto → ∃ k, n ≤ k ∧ r.takes .sample k)
end

