-- ==== Sys2Proof/Laws/Decode.lean ====
section
/-! SUPPORT. What the decoder's functions do, one lemma each. -/

namespace Sys2Proof

@[simp] theorem argLen_ten : argLen 10 = some 2 := by decide
@[simp] theorem argLen_twenty : argLen 20 = some 0 := by decide

/-- The answers `ArgLen` gives, with the opcodes they are for (R56). -/
theorem argLen_cases (b : Byte) :
    (b = 10 ∧ argLen b = some 2) ∨
    (b ∈ ([11, 12, 13, 14, 15, 16] : List Byte) ∧ argLen b = some 1) ∨
    (b = 20 ∧ argLen b = some 0) ∨
    (argLen b = none ∧ b ∉ ([10, 11, 12, 13, 14, 15, 16, 20] : List Byte)) := by
  unfold argLen
  split
  · exact .inl ⟨‹_›, rfl⟩
  · split
    · exact .inr (.inl ⟨‹_›, rfl⟩)
    · split
      · exact .inr (.inr (.inl ⟨‹_›, rfl⟩))
      · refine .inr (.inr (.inr ⟨rfl, ?_⟩))
        simp_all

theorem argLen_two_iff (b : Byte) : argLen b = some 2 ↔ b = 10 := by
  rcases argLen_cases b with ⟨h, e⟩ | ⟨h, e⟩ | ⟨h, e⟩ | ⟨e, h⟩ <;> rw [e] <;> simp at h ⊢
  · exact h
  · rcases h with h | h | h | h | h | h <;> subst h <;> decide
  · subst h; decide
  · exact h.1

theorem argLen_zero_iff (b : Byte) : argLen b = some 0 ↔ b = 20 := by
  rcases argLen_cases b with ⟨h, e⟩ | ⟨h, e⟩ | ⟨h, e⟩ | ⟨e, h⟩ <;> rw [e] <;> simp at h ⊢
  · subst h; decide
  · rcases h with h | h | h | h | h | h <;> subst h <;> decide
  · exact h
  · tauto

theorem argLen_le_two (b : Byte) (n : Nat) (h : argLen b = some n) : n ≤ 2 := by
  rcases argLen_cases b with ⟨-, e⟩ | ⟨-, e⟩ | ⟨-, e⟩ | ⟨e, -⟩ <;> rw [e] at h <;> simp_all <;> omega

/-- A byte is an unknown opcode exactly where `ArgLen` gives none (R55, R56). -/
theorem argLen_none_iff (b : Byte) : argLen b = none ↔ unknownOpcode b = true := by
  revert b; decide +kernel

/-- An opcode with one argument does not look at a second byte (R73). -/
theorem instrOf_one (op a0 a1 a1' : Byte) (h : argLen op = some 1) :
    instrOf op a0 a1 = instrOf op a0 a1' := by
  rcases argLen_cases op with ⟨-, e⟩ | ⟨m, -⟩ | ⟨-, e⟩ | ⟨e, -⟩
  · simp [e] at h
  · have : op ≠ 10 := by rintro rfl; simp at m
    simp only [instrOf, if_neg this]
  · simp [e] at h
  · simp [e] at h

/-- An opcode with no argument does not look at any. -/
theorem instrOf_zero (op a0 a1 : Byte) (h : argLen op = some 0) : instrOf op a0 a1 = .getButtonMask := by
  obtain rfl := (argLen_zero_iff op).mp h
  rfl

@[simp] theorem leHalf_bytes (d : Half) : leHalf (loByte d) (hiByte d) = d := by
  unfold leHalf loByte hiByte
  ext i hi
  simp only [BitVec.getElem_append, BitVec.getElem_extractLsb']
  split
  · simp [BitVec.getLsbD_eq_getElem hi]
  · have : 8 + (i - 8) = i := by omega
    simp [this, BitVec.getLsbD_eq_getElem hi]

theorem leHalf_toNat (lo hi : Byte) : (leHalf lo hi).toNat = hi.toNat * 256 + lo.toNat := by
  unfold leHalf
  rw [BitVec.toNat_append, ← Nat.shiftLeft_add_eq_or_of_lt lo.isLt, Nat.shiftLeft_eq]

end Sys2Proof
end

