-- ==== Sys2Proof/Laws/State.lean ====
section
/-! SUPPORT. One lemma per field and update of the state, each true by rfl, so that no later proof
unfolds a record update. -/

namespace Sys2Proof.Machine.State

@[simp] theorem setArm_cfg (s : State) (a : Arm) : (s.setArm a).cfg = s.cfg := rfl
@[simp] theorem setArm_out (s : State) (a : Arm) : (s.setArm a).out = s.out := rfl
@[simp] theorem setArm_dur (s : State) (a : Arm) : (s.setArm a).dur = s.dur := rfl
@[simp] theorem setArm_phase (s : State) (a : Arm) : (s.setArm a).phase = s.phase := rfl
@[simp] theorem setArm_hmask (s : State) (a : Arm) : (s.setArm a).hmask = s.hmask := rfl
@[simp] theorem setArm_deadline (s : State) (a : Arm) : (s.setArm a).deadline = s.deadline := rfl
@[simp] theorem setArm_rxq (s : State) (a : Arm) : (s.setArm a).rxq = s.rxq := rfl
@[simp] theorem setArm_arm (s : State) (a : Arm) : (s.setArm a).arm = a := rfl
@[simp] theorem setArm_relValid (s : State) (a : Arm) : (s.setArm a).relValid = s.relValid := rfl
@[simp] theorem setArm_relStart (s : State) (a : Arm) : (s.setArm a).relStart = s.relStart := rfl
@[simp] theorem setArm_now (s : State) (a : Arm) : (s.setArm a).now = s.now := rfl
@[simp] theorem setArm_pullupEn (s : State) (a : Arm) : (s.setArm a).pullupEn = s.pullupEn := rfl
@[simp] theorem setArm_outTrace (s : State) (a : Arm) : (s.setArm a).outTrace = s.outTrace := rfl
@[simp] theorem setArm_txLog (s : State) (a : Arm) : (s.setArm a).txLog = s.txLog := rfl
@[simp] theorem setArm_rxOvf (s : State) (a : Arm) : (s.setArm a).rxOvf = s.rxOvf := rfl
@[simp] theorem setArm_pinLevel (s : State) (a : Arm) : (s.setArm a).pinLevel = s.pinLevel := rfl
@[simp] theorem setArm_pinDriven (s : State) (a : Arm) : (s.setArm a).pinDriven = s.pinDriven := rfl
@[simp] theorem setArm_agenda (s : State) (a : Arm) : (s.setArm a).agenda = s.agenda := rfl
@[simp] theorem setArm_draws (s : State) (a : Arm) : (s.setArm a).draws = s.draws := rfl

@[simp] theorem clearTimer_cfg (s : State) : s.clearTimer.cfg = s.cfg := rfl
@[simp] theorem clearTimer_out (s : State) : s.clearTimer.out = s.out := rfl
@[simp] theorem clearTimer_dur (s : State) : s.clearTimer.dur = s.dur := rfl
@[simp] theorem clearTimer_phase (s : State) : s.clearTimer.phase = s.phase := rfl
@[simp] theorem clearTimer_hmask (s : State) : s.clearTimer.hmask = s.hmask := rfl
@[simp] theorem clearTimer_deadline (s : State) : s.clearTimer.deadline = s.deadline := rfl
@[simp] theorem clearTimer_rxq (s : State) : s.clearTimer.rxq = s.rxq := rfl
@[simp] theorem clearTimer_arm (s : State) : s.clearTimer.arm = s.arm := rfl
@[simp] theorem clearTimer_relValid (s : State) : s.clearTimer.relValid = false := rfl
@[simp] theorem clearTimer_relStart (s : State) : s.clearTimer.relStart = s.relStart := rfl
@[simp] theorem clearTimer_now (s : State) : s.clearTimer.now = s.now := rfl
@[simp] theorem clearTimer_pullupEn (s : State) : s.clearTimer.pullupEn = s.pullupEn := rfl
@[simp] theorem clearTimer_outTrace (s : State) : s.clearTimer.outTrace = s.outTrace := rfl
@[simp] theorem clearTimer_txLog (s : State) : s.clearTimer.txLog = s.txLog := rfl
@[simp] theorem clearTimer_rxOvf (s : State) : s.clearTimer.rxOvf = s.rxOvf := rfl
@[simp] theorem clearTimer_pinLevel (s : State) : s.clearTimer.pinLevel = s.pinLevel := rfl
@[simp] theorem clearTimer_pinDriven (s : State) : s.clearTimer.pinDriven = s.pinDriven := rfl
@[simp] theorem clearTimer_agenda (s : State) : s.clearTimer.agenda = s.agenda := rfl
@[simp] theorem clearTimer_draws (s : State) : s.clearTimer.draws = s.draws := rfl

@[simp] theorem startTimer_cfg (s : State) : s.startTimer.cfg = s.cfg := rfl
@[simp] theorem startTimer_out (s : State) : s.startTimer.out = s.out := rfl
@[simp] theorem startTimer_dur (s : State) : s.startTimer.dur = s.dur := rfl
@[simp] theorem startTimer_phase (s : State) : s.startTimer.phase = s.phase := rfl
@[simp] theorem startTimer_hmask (s : State) : s.startTimer.hmask = s.hmask := rfl
@[simp] theorem startTimer_deadline (s : State) : s.startTimer.deadline = s.deadline := rfl
@[simp] theorem startTimer_rxq (s : State) : s.startTimer.rxq = s.rxq := rfl
@[simp] theorem startTimer_arm (s : State) : s.startTimer.arm = s.arm := rfl
@[simp] theorem startTimer_relValid (s : State) : s.startTimer.relValid = true := rfl
@[simp] theorem startTimer_relStart (s : State) : s.startTimer.relStart = s.now := rfl
@[simp] theorem startTimer_now (s : State) : s.startTimer.now = s.now := rfl
@[simp] theorem startTimer_pullupEn (s : State) : s.startTimer.pullupEn = s.pullupEn := rfl
@[simp] theorem startTimer_outTrace (s : State) : s.startTimer.outTrace = s.outTrace := rfl
@[simp] theorem startTimer_txLog (s : State) : s.startTimer.txLog = s.txLog := rfl
@[simp] theorem startTimer_rxOvf (s : State) : s.startTimer.rxOvf = s.rxOvf := rfl
@[simp] theorem startTimer_pinLevel (s : State) : s.startTimer.pinLevel = s.pinLevel := rfl
@[simp] theorem startTimer_pinDriven (s : State) : s.startTimer.pinDriven = s.pinDriven := rfl
@[simp] theorem startTimer_agenda (s : State) : s.startTimer.agenda = s.agenda := rfl
@[simp] theorem startTimer_draws (s : State) : s.startTimer.draws = s.draws := rfl

@[simp] theorem setOvf_cfg (s : State) : s.setOvf.cfg = s.cfg := rfl
@[simp] theorem setOvf_out (s : State) : s.setOvf.out = s.out := rfl
@[simp] theorem setOvf_dur (s : State) : s.setOvf.dur = s.dur := rfl
@[simp] theorem setOvf_phase (s : State) : s.setOvf.phase = s.phase := rfl
@[simp] theorem setOvf_hmask (s : State) : s.setOvf.hmask = s.hmask := rfl
@[simp] theorem setOvf_deadline (s : State) : s.setOvf.deadline = s.deadline := rfl
@[simp] theorem setOvf_rxq (s : State) : s.setOvf.rxq = s.rxq := rfl
@[simp] theorem setOvf_arm (s : State) : s.setOvf.arm = s.arm := rfl
@[simp] theorem setOvf_relValid (s : State) : s.setOvf.relValid = s.relValid := rfl
@[simp] theorem setOvf_relStart (s : State) : s.setOvf.relStart = s.relStart := rfl
@[simp] theorem setOvf_now (s : State) : s.setOvf.now = s.now := rfl
@[simp] theorem setOvf_pullupEn (s : State) : s.setOvf.pullupEn = s.pullupEn := rfl
@[simp] theorem setOvf_outTrace (s : State) : s.setOvf.outTrace = s.outTrace := rfl
@[simp] theorem setOvf_txLog (s : State) : s.setOvf.txLog = s.txLog := rfl
@[simp] theorem setOvf_rxOvf (s : State) : s.setOvf.rxOvf = true := rfl
@[simp] theorem setOvf_pinLevel (s : State) : s.setOvf.pinLevel = s.pinLevel := rfl
@[simp] theorem setOvf_pinDriven (s : State) : s.setOvf.pinDriven = s.pinDriven := rfl
@[simp] theorem setOvf_agenda (s : State) : s.setOvf.agenda = s.agenda := rfl
@[simp] theorem setOvf_draws (s : State) : s.setOvf.draws = s.draws := rfl

@[simp] theorem setDur_cfg (s : State) (d : Half) : (s.setDur d).cfg = s.cfg := rfl
@[simp] theorem setDur_out (s : State) (d : Half) : (s.setDur d).out = s.out := rfl
@[simp] theorem setDur_dur (s : State) (d : Half) : (s.setDur d).dur = d := rfl
@[simp] theorem setDur_phase (s : State) (d : Half) : (s.setDur d).phase = s.phase := rfl
@[simp] theorem setDur_hmask (s : State) (d : Half) : (s.setDur d).hmask = s.hmask := rfl
@[simp] theorem setDur_deadline (s : State) (d : Half) : (s.setDur d).deadline = s.deadline := rfl
@[simp] theorem setDur_rxq (s : State) (d : Half) : (s.setDur d).rxq = s.rxq := rfl
@[simp] theorem setDur_arm (s : State) (d : Half) : (s.setDur d).arm = s.arm := rfl
@[simp] theorem setDur_relValid (s : State) (d : Half) : (s.setDur d).relValid = s.relValid := rfl
@[simp] theorem setDur_relStart (s : State) (d : Half) : (s.setDur d).relStart = s.relStart := rfl
@[simp] theorem setDur_now (s : State) (d : Half) : (s.setDur d).now = s.now := rfl
@[simp] theorem setDur_pullupEn (s : State) (d : Half) : (s.setDur d).pullupEn = s.pullupEn := rfl
@[simp] theorem setDur_outTrace (s : State) (d : Half) : (s.setDur d).outTrace = s.outTrace := rfl
@[simp] theorem setDur_txLog (s : State) (d : Half) : (s.setDur d).txLog = s.txLog := rfl
@[simp] theorem setDur_rxOvf (s : State) (d : Half) : (s.setDur d).rxOvf = s.rxOvf := rfl
@[simp] theorem setDur_pinLevel (s : State) (d : Half) : (s.setDur d).pinLevel = s.pinLevel := rfl
@[simp] theorem setDur_pinDriven (s : State) (d : Half) : (s.setDur d).pinDriven = s.pinDriven := rfl
@[simp] theorem setDur_agenda (s : State) (d : Half) : (s.setDur d).agenda = s.agenda := rfl
@[simp] theorem setDur_draws (s : State) (d : Half) : (s.setDur d).draws = s.draws := rfl

@[simp] theorem setPhase_cfg (s : State) (p : Phase) : (s.setPhase p).cfg = s.cfg := rfl
@[simp] theorem setPhase_out (s : State) (p : Phase) : (s.setPhase p).out = s.out := rfl
@[simp] theorem setPhase_dur (s : State) (p : Phase) : (s.setPhase p).dur = s.dur := rfl
@[simp] theorem setPhase_phase (s : State) (p : Phase) : (s.setPhase p).phase = p := rfl
@[simp] theorem setPhase_hmask (s : State) (p : Phase) : (s.setPhase p).hmask = s.hmask := rfl
@[simp] theorem setPhase_deadline (s : State) (p : Phase) : (s.setPhase p).deadline = s.deadline := rfl
@[simp] theorem setPhase_rxq (s : State) (p : Phase) : (s.setPhase p).rxq = s.rxq := rfl
@[simp] theorem setPhase_arm (s : State) (p : Phase) : (s.setPhase p).arm = s.arm := rfl
@[simp] theorem setPhase_relValid (s : State) (p : Phase) : (s.setPhase p).relValid = s.relValid := rfl
@[simp] theorem setPhase_relStart (s : State) (p : Phase) : (s.setPhase p).relStart = s.relStart := rfl
@[simp] theorem setPhase_now (s : State) (p : Phase) : (s.setPhase p).now = s.now := rfl
@[simp] theorem setPhase_pullupEn (s : State) (p : Phase) : (s.setPhase p).pullupEn = s.pullupEn := rfl
@[simp] theorem setPhase_outTrace (s : State) (p : Phase) : (s.setPhase p).outTrace = s.outTrace := rfl
@[simp] theorem setPhase_txLog (s : State) (p : Phase) : (s.setPhase p).txLog = s.txLog := rfl
@[simp] theorem setPhase_rxOvf (s : State) (p : Phase) : (s.setPhase p).rxOvf = s.rxOvf := rfl
@[simp] theorem setPhase_pinLevel (s : State) (p : Phase) : (s.setPhase p).pinLevel = s.pinLevel := rfl
@[simp] theorem setPhase_pinDriven (s : State) (p : Phase) : (s.setPhase p).pinDriven = s.pinDriven := rfl
@[simp] theorem setPhase_agenda (s : State) (p : Phase) : (s.setPhase p).agenda = s.agenda := rfl
@[simp] theorem setPhase_draws (s : State) (p : Phase) : (s.setPhase p).draws = s.draws := rfl

@[simp] theorem setHold_cfg (s : State) (m : Byte) (t : Nat) : (s.setHold m t).cfg = s.cfg := rfl
@[simp] theorem setHold_out (s : State) (m : Byte) (t : Nat) : (s.setHold m t).out = s.out := rfl
@[simp] theorem setHold_dur (s : State) (m : Byte) (t : Nat) : (s.setHold m t).dur = s.dur := rfl
@[simp] theorem setHold_phase (s : State) (m : Byte) (t : Nat) : (s.setHold m t).phase = s.phase := rfl
@[simp] theorem setHold_hmask (s : State) (m : Byte) (t : Nat) : (s.setHold m t).hmask = m := rfl
@[simp] theorem setHold_deadline (s : State) (m : Byte) (t : Nat) : (s.setHold m t).deadline = t := rfl
@[simp] theorem setHold_rxq (s : State) (m : Byte) (t : Nat) : (s.setHold m t).rxq = s.rxq := rfl
@[simp] theorem setHold_arm (s : State) (m : Byte) (t : Nat) : (s.setHold m t).arm = s.arm := rfl
@[simp] theorem setHold_relValid (s : State) (m : Byte) (t : Nat) : (s.setHold m t).relValid = s.relValid := rfl
@[simp] theorem setHold_relStart (s : State) (m : Byte) (t : Nat) : (s.setHold m t).relStart = s.relStart := rfl
@[simp] theorem setHold_now (s : State) (m : Byte) (t : Nat) : (s.setHold m t).now = s.now := rfl
@[simp] theorem setHold_pullupEn (s : State) (m : Byte) (t : Nat) : (s.setHold m t).pullupEn = s.pullupEn := rfl
@[simp] theorem setHold_outTrace (s : State) (m : Byte) (t : Nat) : (s.setHold m t).outTrace = s.outTrace := rfl
@[simp] theorem setHold_txLog (s : State) (m : Byte) (t : Nat) : (s.setHold m t).txLog = s.txLog := rfl
@[simp] theorem setHold_rxOvf (s : State) (m : Byte) (t : Nat) : (s.setHold m t).rxOvf = s.rxOvf := rfl
@[simp] theorem setHold_pinLevel (s : State) (m : Byte) (t : Nat) : (s.setHold m t).pinLevel = s.pinLevel := rfl
@[simp] theorem setHold_pinDriven (s : State) (m : Byte) (t : Nat) : (s.setHold m t).pinDriven = s.pinDriven := rfl
@[simp] theorem setHold_agenda (s : State) (m : Byte) (t : Nat) : (s.setHold m t).agenda = s.agenda := rfl
@[simp] theorem setHold_draws (s : State) (m : Byte) (t : Nat) : (s.setHold m t).draws = s.draws := rfl

@[simp] theorem setRxq_cfg (s : State) (q : List Byte) : (s.setRxq q).cfg = s.cfg := rfl
@[simp] theorem setRxq_out (s : State) (q : List Byte) : (s.setRxq q).out = s.out := rfl
@[simp] theorem setRxq_dur (s : State) (q : List Byte) : (s.setRxq q).dur = s.dur := rfl
@[simp] theorem setRxq_phase (s : State) (q : List Byte) : (s.setRxq q).phase = s.phase := rfl
@[simp] theorem setRxq_hmask (s : State) (q : List Byte) : (s.setRxq q).hmask = s.hmask := rfl
@[simp] theorem setRxq_deadline (s : State) (q : List Byte) : (s.setRxq q).deadline = s.deadline := rfl
@[simp] theorem setRxq_rxq (s : State) (q : List Byte) : (s.setRxq q).rxq = q := rfl
@[simp] theorem setRxq_arm (s : State) (q : List Byte) : (s.setRxq q).arm = s.arm := rfl
@[simp] theorem setRxq_relValid (s : State) (q : List Byte) : (s.setRxq q).relValid = s.relValid := rfl
@[simp] theorem setRxq_relStart (s : State) (q : List Byte) : (s.setRxq q).relStart = s.relStart := rfl
@[simp] theorem setRxq_now (s : State) (q : List Byte) : (s.setRxq q).now = s.now := rfl
@[simp] theorem setRxq_pullupEn (s : State) (q : List Byte) : (s.setRxq q).pullupEn = s.pullupEn := rfl
@[simp] theorem setRxq_outTrace (s : State) (q : List Byte) : (s.setRxq q).outTrace = s.outTrace := rfl
@[simp] theorem setRxq_txLog (s : State) (q : List Byte) : (s.setRxq q).txLog = s.txLog := rfl
@[simp] theorem setRxq_rxOvf (s : State) (q : List Byte) : (s.setRxq q).rxOvf = s.rxOvf := rfl
@[simp] theorem setRxq_pinLevel (s : State) (q : List Byte) : (s.setRxq q).pinLevel = s.pinLevel := rfl
@[simp] theorem setRxq_pinDriven (s : State) (q : List Byte) : (s.setRxq q).pinDriven = s.pinDriven := rfl
@[simp] theorem setRxq_agenda (s : State) (q : List Byte) : (s.setRxq q).agenda = s.agenda := rfl
@[simp] theorem setRxq_draws (s : State) (q : List Byte) : (s.setRxq q).draws = s.draws := rfl

@[simp] theorem setNow_cfg (s : State) (t : Nat) : (s.setNow t).cfg = s.cfg := rfl
@[simp] theorem setNow_out (s : State) (t : Nat) : (s.setNow t).out = s.out := rfl
@[simp] theorem setNow_dur (s : State) (t : Nat) : (s.setNow t).dur = s.dur := rfl
@[simp] theorem setNow_phase (s : State) (t : Nat) : (s.setNow t).phase = s.phase := rfl
@[simp] theorem setNow_hmask (s : State) (t : Nat) : (s.setNow t).hmask = s.hmask := rfl
@[simp] theorem setNow_deadline (s : State) (t : Nat) : (s.setNow t).deadline = s.deadline := rfl
@[simp] theorem setNow_rxq (s : State) (t : Nat) : (s.setNow t).rxq = s.rxq := rfl
@[simp] theorem setNow_arm (s : State) (t : Nat) : (s.setNow t).arm = s.arm := rfl
@[simp] theorem setNow_relValid (s : State) (t : Nat) : (s.setNow t).relValid = s.relValid := rfl
@[simp] theorem setNow_relStart (s : State) (t : Nat) : (s.setNow t).relStart = s.relStart := rfl
@[simp] theorem setNow_now (s : State) (t : Nat) : (s.setNow t).now = t := rfl
@[simp] theorem setNow_pullupEn (s : State) (t : Nat) : (s.setNow t).pullupEn = s.pullupEn := rfl
@[simp] theorem setNow_outTrace (s : State) (t : Nat) : (s.setNow t).outTrace = s.outTrace := rfl
@[simp] theorem setNow_txLog (s : State) (t : Nat) : (s.setNow t).txLog = s.txLog := rfl
@[simp] theorem setNow_rxOvf (s : State) (t : Nat) : (s.setNow t).rxOvf = s.rxOvf := rfl
@[simp] theorem setNow_pinLevel (s : State) (t : Nat) : (s.setNow t).pinLevel = s.pinLevel := rfl
@[simp] theorem setNow_pinDriven (s : State) (t : Nat) : (s.setNow t).pinDriven = s.pinDriven := rfl
@[simp] theorem setNow_agenda (s : State) (t : Nat) : (s.setNow t).agenda = s.agenda := rfl
@[simp] theorem setNow_draws (s : State) (t : Nat) : (s.setNow t).draws = s.draws := rfl

@[simp] theorem setPins_cfg (s : State) (l d : Byte) : (s.setPins l d).cfg = s.cfg := rfl
@[simp] theorem setPins_out (s : State) (l d : Byte) : (s.setPins l d).out = s.out := rfl
@[simp] theorem setPins_dur (s : State) (l d : Byte) : (s.setPins l d).dur = s.dur := rfl
@[simp] theorem setPins_phase (s : State) (l d : Byte) : (s.setPins l d).phase = s.phase := rfl
@[simp] theorem setPins_hmask (s : State) (l d : Byte) : (s.setPins l d).hmask = s.hmask := rfl
@[simp] theorem setPins_deadline (s : State) (l d : Byte) : (s.setPins l d).deadline = s.deadline := rfl
@[simp] theorem setPins_rxq (s : State) (l d : Byte) : (s.setPins l d).rxq = s.rxq := rfl
@[simp] theorem setPins_arm (s : State) (l d : Byte) : (s.setPins l d).arm = s.arm := rfl
@[simp] theorem setPins_relValid (s : State) (l d : Byte) : (s.setPins l d).relValid = s.relValid := rfl
@[simp] theorem setPins_relStart (s : State) (l d : Byte) : (s.setPins l d).relStart = s.relStart := rfl
@[simp] theorem setPins_now (s : State) (l d : Byte) : (s.setPins l d).now = s.now := rfl
@[simp] theorem setPins_pullupEn (s : State) (l d : Byte) : (s.setPins l d).pullupEn = s.pullupEn := rfl
@[simp] theorem setPins_outTrace (s : State) (l d : Byte) : (s.setPins l d).outTrace = s.outTrace := rfl
@[simp] theorem setPins_txLog (s : State) (l d : Byte) : (s.setPins l d).txLog = s.txLog := rfl
@[simp] theorem setPins_rxOvf (s : State) (l d : Byte) : (s.setPins l d).rxOvf = s.rxOvf := rfl
@[simp] theorem setPins_pinLevel (s : State) (l d : Byte) : (s.setPins l d).pinLevel = l := rfl
@[simp] theorem setPins_pinDriven (s : State) (l d : Byte) : (s.setPins l d).pinDriven = d := rfl
@[simp] theorem setPins_agenda (s : State) (l d : Byte) : (s.setPins l d).agenda = s.agenda := rfl
@[simp] theorem setPins_draws (s : State) (l d : Byte) : (s.setPins l d).draws = s.draws := rfl

@[simp] theorem setAgenda_cfg (s : State) (a : List Move) : (s.setAgenda a).cfg = s.cfg := rfl
@[simp] theorem setAgenda_out (s : State) (a : List Move) : (s.setAgenda a).out = s.out := rfl
@[simp] theorem setAgenda_dur (s : State) (a : List Move) : (s.setAgenda a).dur = s.dur := rfl
@[simp] theorem setAgenda_phase (s : State) (a : List Move) : (s.setAgenda a).phase = s.phase := rfl
@[simp] theorem setAgenda_hmask (s : State) (a : List Move) : (s.setAgenda a).hmask = s.hmask := rfl
@[simp] theorem setAgenda_deadline (s : State) (a : List Move) : (s.setAgenda a).deadline = s.deadline := rfl
@[simp] theorem setAgenda_rxq (s : State) (a : List Move) : (s.setAgenda a).rxq = s.rxq := rfl
@[simp] theorem setAgenda_arm (s : State) (a : List Move) : (s.setAgenda a).arm = s.arm := rfl
@[simp] theorem setAgenda_relValid (s : State) (a : List Move) : (s.setAgenda a).relValid = s.relValid := rfl
@[simp] theorem setAgenda_relStart (s : State) (a : List Move) : (s.setAgenda a).relStart = s.relStart := rfl
@[simp] theorem setAgenda_now (s : State) (a : List Move) : (s.setAgenda a).now = s.now := rfl
@[simp] theorem setAgenda_pullupEn (s : State) (a : List Move) : (s.setAgenda a).pullupEn = s.pullupEn := rfl
@[simp] theorem setAgenda_outTrace (s : State) (a : List Move) : (s.setAgenda a).outTrace = s.outTrace := rfl
@[simp] theorem setAgenda_txLog (s : State) (a : List Move) : (s.setAgenda a).txLog = s.txLog := rfl
@[simp] theorem setAgenda_rxOvf (s : State) (a : List Move) : (s.setAgenda a).rxOvf = s.rxOvf := rfl
@[simp] theorem setAgenda_pinLevel (s : State) (a : List Move) : (s.setAgenda a).pinLevel = s.pinLevel := rfl
@[simp] theorem setAgenda_pinDriven (s : State) (a : List Move) : (s.setAgenda a).pinDriven = s.pinDriven := rfl
@[simp] theorem setAgenda_agenda (s : State) (a : List Move) : (s.setAgenda a).agenda = a := rfl
@[simp] theorem setAgenda_draws (s : State) (a : List Move) : (s.setAgenda a).draws = s.draws := rfl

@[simp] theorem drawn_cfg (s : State) : s.drawn.cfg = s.cfg := rfl
@[simp] theorem drawn_out (s : State) : s.drawn.out = s.out := rfl
@[simp] theorem drawn_dur (s : State) : s.drawn.dur = s.dur := rfl
@[simp] theorem drawn_phase (s : State) : s.drawn.phase = s.phase := rfl
@[simp] theorem drawn_hmask (s : State) : s.drawn.hmask = s.hmask := rfl
@[simp] theorem drawn_deadline (s : State) : s.drawn.deadline = s.deadline := rfl
@[simp] theorem drawn_rxq (s : State) : s.drawn.rxq = s.rxq := rfl
@[simp] theorem drawn_arm (s : State) : s.drawn.arm = s.arm := rfl
@[simp] theorem drawn_relValid (s : State) : s.drawn.relValid = s.relValid := rfl
@[simp] theorem drawn_relStart (s : State) : s.drawn.relStart = s.relStart := rfl
@[simp] theorem drawn_now (s : State) : s.drawn.now = s.now := rfl
@[simp] theorem drawn_pullupEn (s : State) : s.drawn.pullupEn = s.pullupEn := rfl
@[simp] theorem drawn_outTrace (s : State) : s.drawn.outTrace = s.outTrace := rfl
@[simp] theorem drawn_txLog (s : State) : s.drawn.txLog = s.txLog := rfl
@[simp] theorem drawn_rxOvf (s : State) : s.drawn.rxOvf = s.rxOvf := rfl
@[simp] theorem drawn_pinLevel (s : State) : s.drawn.pinLevel = s.pinLevel := rfl
@[simp] theorem drawn_pinDriven (s : State) : s.drawn.pinDriven = s.pinDriven := rfl
@[simp] theorem drawn_agenda (s : State) : s.drawn.agenda = s.agenda := rfl
@[simp] theorem drawn_draws (s : State) : s.drawn.draws = s.draws + 1 := rfl

@[simp] theorem outWrite_cfg (s : State) (v : Byte) : (s.outWrite v).cfg = s.cfg := rfl
@[simp] theorem outWrite_out (s : State) (v : Byte) : (s.outWrite v).out = v := rfl
@[simp] theorem outWrite_dur (s : State) (v : Byte) : (s.outWrite v).dur = s.dur := rfl
@[simp] theorem outWrite_phase (s : State) (v : Byte) : (s.outWrite v).phase = s.phase := rfl
@[simp] theorem outWrite_hmask (s : State) (v : Byte) : (s.outWrite v).hmask = s.hmask := rfl
@[simp] theorem outWrite_deadline (s : State) (v : Byte) : (s.outWrite v).deadline = s.deadline := rfl
@[simp] theorem outWrite_rxq (s : State) (v : Byte) : (s.outWrite v).rxq = s.rxq := rfl
@[simp] theorem outWrite_arm (s : State) (v : Byte) : (s.outWrite v).arm = s.arm := rfl
@[simp] theorem outWrite_relValid (s : State) (v : Byte) : (s.outWrite v).relValid = s.relValid := rfl
@[simp] theorem outWrite_relStart (s : State) (v : Byte) : (s.outWrite v).relStart = s.relStart := rfl
@[simp] theorem outWrite_now (s : State) (v : Byte) : (s.outWrite v).now = s.now := rfl
@[simp] theorem outWrite_pullupEn (s : State) (v : Byte) : (s.outWrite v).pullupEn = s.pullupEn := rfl
@[simp] theorem outWrite_outTrace (s : State) (v : Byte) : (s.outWrite v).outTrace = s.outTrace ++ [(s.now, v)] := rfl
@[simp] theorem outWrite_txLog (s : State) (v : Byte) : (s.outWrite v).txLog = s.txLog := rfl
@[simp] theorem outWrite_rxOvf (s : State) (v : Byte) : (s.outWrite v).rxOvf = s.rxOvf := rfl
@[simp] theorem outWrite_pinLevel (s : State) (v : Byte) : (s.outWrite v).pinLevel = s.pinLevel := rfl
@[simp] theorem outWrite_pinDriven (s : State) (v : Byte) : (s.outWrite v).pinDriven = s.pinDriven := rfl
@[simp] theorem outWrite_agenda (s : State) (v : Byte) : (s.outWrite v).agenda = s.agenda := rfl
@[simp] theorem outWrite_draws (s : State) (v : Byte) : (s.outWrite v).draws = s.draws := rfl

@[simp] theorem txAppend_cfg (s : State) (bs : List Byte) : (s.txAppend bs).cfg = s.cfg := rfl
@[simp] theorem txAppend_out (s : State) (bs : List Byte) : (s.txAppend bs).out = s.out := rfl
@[simp] theorem txAppend_dur (s : State) (bs : List Byte) : (s.txAppend bs).dur = s.dur := rfl
@[simp] theorem txAppend_phase (s : State) (bs : List Byte) : (s.txAppend bs).phase = s.phase := rfl
@[simp] theorem txAppend_hmask (s : State) (bs : List Byte) : (s.txAppend bs).hmask = s.hmask := rfl
@[simp] theorem txAppend_deadline (s : State) (bs : List Byte) : (s.txAppend bs).deadline = s.deadline := rfl
@[simp] theorem txAppend_rxq (s : State) (bs : List Byte) : (s.txAppend bs).rxq = s.rxq := rfl
@[simp] theorem txAppend_arm (s : State) (bs : List Byte) : (s.txAppend bs).arm = s.arm := rfl
@[simp] theorem txAppend_relValid (s : State) (bs : List Byte) : (s.txAppend bs).relValid = s.relValid := rfl
@[simp] theorem txAppend_relStart (s : State) (bs : List Byte) : (s.txAppend bs).relStart = s.relStart := rfl
@[simp] theorem txAppend_now (s : State) (bs : List Byte) : (s.txAppend bs).now = s.now := rfl
@[simp] theorem txAppend_pullupEn (s : State) (bs : List Byte) : (s.txAppend bs).pullupEn = s.pullupEn := rfl
@[simp] theorem txAppend_outTrace (s : State) (bs : List Byte) : (s.txAppend bs).outTrace = s.outTrace := rfl
@[simp] theorem txAppend_txLog (s : State) (bs : List Byte) : (s.txAppend bs).txLog = s.txLog ++ bs := rfl
@[simp] theorem txAppend_rxOvf (s : State) (bs : List Byte) : (s.txAppend bs).rxOvf = s.rxOvf := rfl
@[simp] theorem txAppend_pinLevel (s : State) (bs : List Byte) : (s.txAppend bs).pinLevel = s.pinLevel := rfl
@[simp] theorem txAppend_pinDriven (s : State) (bs : List Byte) : (s.txAppend bs).pinDriven = s.pinDriven := rfl
@[simp] theorem txAppend_agenda (s : State) (bs : List Byte) : (s.txAppend bs).agenda = s.agenda := rfl
@[simp] theorem txAppend_draws (s : State) (bs : List Byte) : (s.txAppend bs).draws = s.draws := rfl

@[simp] theorem configureInputs_cfg (s : State) : s.configureInputs.cfg = s.cfg := rfl
@[simp] theorem configureInputs_out (s : State) : s.configureInputs.out = s.out := rfl
@[simp] theorem configureInputs_dur (s : State) : s.configureInputs.dur = s.dur := rfl
@[simp] theorem configureInputs_phase (s : State) : s.configureInputs.phase = s.phase := rfl
@[simp] theorem configureInputs_hmask (s : State) : s.configureInputs.hmask = s.hmask := rfl
@[simp] theorem configureInputs_deadline (s : State) : s.configureInputs.deadline = s.deadline := rfl
@[simp] theorem configureInputs_rxq (s : State) : s.configureInputs.rxq = s.rxq := rfl
@[simp] theorem configureInputs_arm (s : State) : s.configureInputs.arm = s.arm := rfl
@[simp] theorem configureInputs_relValid (s : State) : s.configureInputs.relValid = s.relValid := rfl
@[simp] theorem configureInputs_relStart (s : State) : s.configureInputs.relStart = s.relStart := rfl
@[simp] theorem configureInputs_now (s : State) : s.configureInputs.now = s.now := rfl
@[simp] theorem configureInputs_pullupEn (s : State) : s.configureInputs.pullupEn = pullups s.cfg.pol := rfl
@[simp] theorem configureInputs_outTrace (s : State) : s.configureInputs.outTrace = s.outTrace := rfl
@[simp] theorem configureInputs_txLog (s : State) : s.configureInputs.txLog = s.txLog := rfl
@[simp] theorem configureInputs_rxOvf (s : State) : s.configureInputs.rxOvf = s.rxOvf := rfl
@[simp] theorem configureInputs_pinLevel (s : State) : s.configureInputs.pinLevel = s.pinLevel := rfl
@[simp] theorem configureInputs_pinDriven (s : State) : s.configureInputs.pinDriven = s.pinDriven := rfl
@[simp] theorem configureInputs_agenda (s : State) : s.configureInputs.agenda = s.agenda := rfl
@[simp] theorem configureInputs_draws (s : State) : s.configureInputs.draws = s.draws := rfl

end Sys2Proof.Machine.State
end

