-- ==== Sys2Proof/Laws/Ops.lean ====
section
/-! SUPPORT. One lemma per shared operation that says everything it does, so that no later proof
unfolds the operation. -/

namespace Sys2Proof.Machine

/-! ## Operands -/

theorem lineBit_getLsbD (i j : Nat) (hi : i < 8) (hj : j < 8) :
    (lineBit i).getLsbD j = decide (j = i) := by
  interval_cases i <;> interval_cases j <;> decide

theorem lineBit_ne_zero (i : Fin 8) : lineBit i ≠ 0 := by
  revert i; decide

theorem namesLine_iff (i : Byte) : namesLine i = true ↔ i.toNat < 8 := by
  unfold namesLine; exact decide_eq_true_iff

namespace State

/-! ## Outputs -/

theorem writeLine_named (s : State) (i : Byte) (level : Bool) (h : i.toNat < 8) :
    s.writeLine i level =
      s.outWrite (if level then s.out ||| lineMask i else s.out &&& ~~~ (lineMask i)) := by
  simp [writeLine, namesLine_iff, h]

theorem writeLine_unnamed (s : State) (i : Byte) (level : Bool) (h : 8 ≤ i.toNat) :
    s.writeLine i level = s := by
  simp [writeLine, namesLine_iff, Nat.not_lt.mpr h]

/-! ## Inputs -/

theorem inPin_driven (s : State) (i : Nat) (h : s.pinDriven.getLsbD i = true) :
    s.inPin.getLsbD i = s.pinLevel.getLsbD i := by
  simp [inPin, h]

theorem inPin_pulled (s : State) (i : Nat) (hi : i < 8) (h : s.pinDriven.getLsbD i = false)
    (hp : s.cfg.pol = .activeLow) : s.inPin.getLsbD i = true := by
  have : (0xFF : Byte).getLsbD i = true := by interval_cases i <;> decide
  simp only [inPin, floatLevels, hp, BitVec.getLsbD_or, BitVec.getLsbD_and, BitVec.getLsbD_not, h,
    this, hi, decide_true, Bool.not_false, Bool.and_self, Bool.or_true]

theorem inputMask_eq (s : State) :
    s.inputMask = if s.cfg.pol = .activeLow then ~~~ s.inPin else s.inPin := by
  cases h : s.cfg.pol <;> simp [inputMask, h]

/-- Where no draw is looked at, the mask depends on the build and the pins alone. -/
theorem inputMask_steady (s t : State) (hs : s.cfg.pol = .activeLow ∨ s.pinDriven = 0xFF)
    (hc : t.cfg = s.cfg) (hl : t.pinLevel = s.pinLevel) (hd : t.pinDriven = s.pinDriven) :
    t.inputMask = s.inputMask := by
  rcases hs with h | h <;> cases hp : s.cfg.pol <;>
    simp_all [inputMask, inPin, floatLevels]

/-! ## Time -/

/-- Whatever is drawn, the hold length is within the resolution of the duration (R81). -/
theorem holdTicks_bounds (s : State) (d : Half) :
    d.toNat * s.cfg.ticksPerMs - s.cfg.pulseRes ≤ s.holdTicks d ∧
      s.holdTicks d ≤ d.toNat * s.cfg.ticksPerMs + s.cfg.pulseRes := by
  unfold holdTicks
  generalize d.toNat * s.cfg.ticksPerMs = e
  dsimp only
  split
  · omega
  · have := Nat.mod_lt (Config.freeHold s.draws)
      (show 0 < e + s.cfg.pulseRes - (e - s.cfg.pulseRes) + 1 by omega)
    omega

theorem fallDue_iff (s : State) : s.fallDue = true ↔ s.phase = .hold ∧ s.deadline ≤ s.now := by
  simp [fallDue]

theorem timerRipe_iff (s : State) :
    s.timerRipe = true ↔ s.relStart + s.cfg.relInterval ≤ s.now := by
  simp [timerRipe]

/-! ## Pulse -/

theorem pulseStart_eq (s : State) (m : Byte) (d : Half) :
    s.pulseStart m d = { s with
      out := s.out ||| m, outTrace := s.outTrace ++ [(s.now, s.out ||| m)], hmask := m,
      deadline := s.now + s.holdTicks d, phase := .hold, draws := s.draws + 1 } := rfl

/-- The fall: what a log line adds is `line`, empty but in AUTO mode with `AUTO_LOG`. -/
theorem fallStep_cases (s : State) : ∃ line n,
    s.fallStep = { s with
      out := s.out &&& ~~~ s.hmask, outTrace := s.outTrace ++ [(s.now, s.out &&& ~~~ s.hmask)],
      phase := .idle, txLog := s.txLog ++ line, draws := n } ∧
    (¬ (s.cfg.mode = .auto ∧ s.cfg.autoLog = true) → line = [] ∧ n = s.draws) := by
  by_cases h : s.cfg.mode = .auto ∧ s.cfg.autoLog = true
  · exact ⟨Config.freeLogLine s.draws, s.draws + 1,
      by simp [fallStep, h, emitLogLine, txAppend, drawn, setPhase, outWrite], fun n => absurd h n⟩
  · refine ⟨[], s.draws, ?_, fun _ => ⟨rfl, rfl⟩⟩
    simp [fallStep, h, setPhase, outWrite]

/-! ## Reset -/

theorem resetBlock_eq (s : State) :
    s.resetBlock = { s with
      out := 0x00, outTrace := s.outTrace ++ [(s.now, 0x00)], pullupEn := pullups s.cfg.pol,
      dur := Config.durReset, phase := .idle, hmask := 0x00, deadline := 0, rxq := [],
      arm := .armed, relValid := false, relStart := 0 } := rfl

/-! ## Sample -/

theorem fire_eq (s : State) :
    s.fire = { s with
      arm := .disarmed, relValid := false, out := s.out ||| lineBit s.cfg.trigLine,
      outTrace := s.outTrace ++ [(s.now, s.out ||| lineBit s.cfg.trigLine)],
      hmask := lineBit s.cfg.trigLine, deadline := s.now + s.holdTicks s.cfg.autoPulseMs,
      phase := .hold, draws := s.draws + 1 } := rfl

/-- The rows of the transition table (R102). -/
theorem sampleStep_cases (s : State) :
    (s.arm = .armed ∧ s.inputMask ≠ 0 ∧ s.sampleStep = s.drawn.fire) ∨
    (s.arm = .armed ∧ s.inputMask = 0 ∧ s.sampleStep = s.drawn) ∨
    (s.arm = .disarmed ∧ s.inputMask ≠ 0 ∧ s.sampleStep = s.drawn.clearTimer) ∨
    (s.arm = .disarmed ∧ s.inputMask = 0 ∧ s.relValid = false ∧
      s.sampleStep = s.drawn.startTimer) ∨
    (s.arm = .disarmed ∧ s.inputMask = 0 ∧ s.relValid = true ∧
      s.relStart + s.cfg.relInterval ≤ s.now ∧
      s.sampleStep = (s.drawn.setArm .armed).clearTimer) ∨
    (s.arm = .disarmed ∧ s.inputMask = 0 ∧ s.relValid = true ∧
      ¬ s.relStart + s.cfg.relInterval ≤ s.now ∧ s.sampleStep = s.drawn) := by
  by_cases hm : s.inputMask = 0#8 <;> cases ha : s.arm <;> cases hv : s.relValid <;>
    by_cases ht : s.relStart + s.cfg.relInterval ≤ s.now <;>
    simp [sampleStep, sampleInputs, watchRelease, timerRipe, hm, ha, hv, ht]

/-- A byte that arrives is discarded (AUTO), queued, or lost (R68, R75). -/
theorem receive_cases (s : State) (b : Byte) :
    (s.cfg.mode = .auto ∧ s.receive b = s) ∨
    (s.cfg.mode = .cmd ∧ s.rxq.length < s.cfg.rxDepth ∧ s.receive b = s.setRxq (s.rxq ++ [b])) ∨
    (s.cfg.mode = .cmd ∧ s.cfg.rxDepth ≤ s.rxq.length ∧ s.receive b = s.setOvf) := by
  by_cases hq : s.rxq.length < s.cfg.rxDepth <;> cases hm : s.cfg.mode <;>
    simp [receive, hm, hq]
  omega

end State

end Sys2Proof.Machine
end

