-- ==== Sys2Proof/Laws/PerInstr.lean ====
section
/-! SUPPORT. Facts stated for every instruction, one lemma per constructor of `Instr`. -/

namespace Sys2Proof.Laws.EncodeLength

/-- A well-formed command is as many bytes long as its opcode byte says (30_encoding.md R49, R56). -/
def Statement (i : Instr) : Prop :=
  i.wellFormed = true → ∃ op rest, encode i = op :: rest ∧ (encode i).length = commandLength op

theorem setPulseDuration (d : Half) : Statement (.setPulseDuration d) := fun _ => ⟨0x0A, _, rfl, rfl⟩

theorem pulseMask (m : Byte) : Statement (.pulseMask m) := fun _ => ⟨0x0B, _, rfl, rfl⟩

theorem pulseLine (i : Byte) : Statement (.pulseLine i) := fun _ => ⟨0x0C, _, rfl, rfl⟩

theorem setMaskHigh (m : Byte) : Statement (.setMaskHigh m) := fun _ => ⟨0x0D, _, rfl, rfl⟩

theorem setMaskLow (m : Byte) : Statement (.setMaskLow m) := fun _ => ⟨0x0E, _, rfl, rfl⟩

theorem setLineHigh (i : Byte) : Statement (.setLineHigh i) := fun _ => ⟨0x0F, _, rfl, rfl⟩

theorem setLineLow (i : Byte) : Statement (.setLineLow i) := fun _ => ⟨0x10, _, rfl, rfl⟩

theorem getButtonMask : Statement .getButtonMask := fun _ => ⟨0x14, _, rfl, rfl⟩

theorem unknown (o : Byte) : Statement (.unknown o) := fun h =>
  ⟨o, [], rfl, by simp [encode, commandLength, (argLen_none_iff o).mpr h]⟩

end Sys2Proof.Laws.EncodeLength
end

