-- ==== Sys2Proof/Laws/Step.lean ====
section
/-! SUPPORT. What executing a command and making a move can do, said once: the inversion lemmas
`exec_cases` and `step_cases`, from which every claim about a move is derived. -/

namespace Sys2Proof.Machine

/-! ## `turnTaken` changes the agenda alone -/

namespace State

theorem turnTaken_eq (s : State) : s.turnTaken = s.setAgenda s.turnTaken.agenda := rfl

@[simp] theorem turnTaken_cfg (s : State) : s.turnTaken.cfg = s.cfg := rfl
@[simp] theorem turnTaken_out (s : State) : s.turnTaken.out = s.out := rfl
@[simp] theorem turnTaken_dur (s : State) : s.turnTaken.dur = s.dur := rfl
@[simp] theorem turnTaken_phase (s : State) : s.turnTaken.phase = s.phase := rfl
@[simp] theorem turnTaken_hmask (s : State) : s.turnTaken.hmask = s.hmask := rfl
@[simp] theorem turnTaken_deadline (s : State) : s.turnTaken.deadline = s.deadline := rfl
@[simp] theorem turnTaken_rxq (s : State) : s.turnTaken.rxq = s.rxq := rfl
@[simp] theorem turnTaken_arm (s : State) : s.turnTaken.arm = s.arm := rfl
@[simp] theorem turnTaken_relValid (s : State) : s.turnTaken.relValid = s.relValid := rfl
@[simp] theorem turnTaken_relStart (s : State) : s.turnTaken.relStart = s.relStart := rfl
@[simp] theorem turnTaken_now (s : State) : s.turnTaken.now = s.now := rfl
@[simp] theorem turnTaken_pullupEn (s : State) : s.turnTaken.pullupEn = s.pullupEn := rfl
@[simp] theorem turnTaken_outTrace (s : State) : s.turnTaken.outTrace = s.outTrace := rfl
@[simp] theorem turnTaken_txLog (s : State) : s.turnTaken.txLog = s.txLog := rfl
@[simp] theorem turnTaken_rxOvf (s : State) : s.turnTaken.rxOvf = s.rxOvf := rfl
@[simp] theorem turnTaken_pinLevel (s : State) : s.turnTaken.pinLevel = s.pinLevel := rfl
@[simp] theorem turnTaken_pinDriven (s : State) : s.turnTaken.pinDriven = s.pinDriven := rfl
@[simp] theorem turnTaken_draws (s : State) : s.turnTaken.draws = s.draws := rfl
@[simp] theorem turnTaken_inputMask (s : State) : s.turnTaken.inputMask = s.inputMask := rfl

/-- What a turn leaves to come was to come before, or is the tick of free running. -/
theorem mem_turnTaken_agenda (s : State) (m : Move) (h : m ∈ s.turnTaken.agenda) :
    m ∈ s.agenda ∨ m = .tick := by
  unfold turnTaken at h
  cases ha : s.agenda with
  | nil => right; simpa [ha] using h
  | cons a rest => left; simp [ha] at h; simp [h]

end State

namespace State

theorem dispatchEnabled_iff (s : State) :
    s.dispatchEnabled = true ↔ s.cfg.mode = .cmd ∧ s.phase ≠ .hold ∧ s.rxq ≠ [] := by
  simp only [dispatchEnabled, Bool.and_eq_true, decide_eq_true_eq, and_assoc]

theorem sampleEnabled_iff (s : State) :
    s.sampleEnabled = true ↔ s.cfg.mode = .auto ∧ s.phase = .idle := by
  simp only [sampleEnabled, Bool.and_eq_true, decide_eq_true_eq]

end State

/-! ## Executing a command -/

/-- Everything executing a command can do, with the command that does it. -/
inductive ExecCase (i : Instr) (s t : State) : Prop
  | duration (d : Half) (hi : i = .setPulseDuration d) (ht : t = s.setDur d)
  | pulse (m : Byte)
      (hi : i = .pulseMask m ∨ ∃ k : Byte, k.toNat < 8 ∧ i = .pulseLine k ∧ m = lineMask k)
      (ht : t = s.pulseStart m s.dur)
  | raise (m : Byte)
      (hi : i = .setMaskHigh m ∨ ∃ k : Byte, k.toNat < 8 ∧ i = .setLineHigh k ∧ m = lineMask k)
      (ht : t = s.outWrite (s.out ||| m))
  | lower (m : Byte)
      (hi : i = .setMaskLow m ∨ ∃ k : Byte, k.toNat < 8 ∧ i = .setLineLow k ∧ m = lineMask k)
      (ht : t = s.outWrite (s.out &&& ~~~ m))
  | answer (hi : i = .getButtonMask) (ht : t = s.drawn.txAppend [s.inputMask])
  | nothing
      (hi : (∃ o, i = .unknown o) ∨
        ∃ k : Byte, 8 ≤ k.toNat ∧ (i = .pulseLine k ∨ i = .setLineHigh k ∨ i = .setLineLow k))
      (ht : t = s)

theorem exec_cases (i : Instr) (s : State) : ∃ t, exec i s = .next t ∧ ExecCase i s t := by
  cases i with
  | setPulseDuration d => exact ⟨_, rfl, .duration d rfl rfl⟩
  | pulseMask m => exact ⟨_, rfl, .pulse m (.inl rfl) rfl⟩
  | pulseLine k =>
    refine ⟨_, rfl, ?_⟩
    by_cases h : k.toNat < 8
    · exact .pulse (lineMask k) (.inr ⟨k, h, rfl, rfl⟩) (if_pos ((namesLine_iff k).mpr h))
    · exact .nothing (.inr ⟨k, Nat.not_lt.mp h, .inl rfl⟩) (if_neg (mt (namesLine_iff k).mp h))
  | setMaskHigh m => exact ⟨_, rfl, .raise m (.inl rfl) rfl⟩
  | setMaskLow m => exact ⟨_, rfl, .lower m (.inl rfl) rfl⟩
  | setLineHigh k =>
    refine ⟨_, rfl, ?_⟩
    by_cases h : k.toNat < 8
    · exact .raise (lineMask k) (.inr ⟨k, h, rfl, rfl⟩) (State.writeLine_named s k true h)
    · exact .nothing (.inr ⟨k, Nat.not_lt.mp h, .inr (.inl rfl)⟩)
        (State.writeLine_unnamed s k true (Nat.not_lt.mp h))
  | setLineLow k =>
    refine ⟨_, rfl, ?_⟩
    by_cases h : k.toNat < 8
    · exact .lower (lineMask k) (.inr ⟨k, h, rfl, rfl⟩) (State.writeLine_named s k false h)
    · exact .nothing (.inr ⟨k, Nat.not_lt.mp h, .inr (.inr rfl)⟩)
        (State.writeLine_unnamed s k false (Nat.not_lt.mp h))
  | getButtonMask => exact ⟨_, rfl, .answer rfl rfl⟩
  | unknown o => exact ⟨_, rfl, .nothing (.inl ⟨o, rfl⟩) rfl⟩

/-! ## Making a move -/

/-- Everything a move can do. -/
inductive StepCase (s t : State) : Prop
  /-- A byte arrives. -/
  | arrives (b : Byte) (rest : List Move) (hm : s.agenda = .rx b :: rest)
      (ht : t = (s.setAgenda rest).receive b)
  /-- The pins change. -/
  | pins (l d : Byte) (rest : List Move) (hm : s.agenda = .pins l d :: rest)
      (ht : t = (s.setAgenda rest).setPins l d)
  /-- Time advances. -/
  | tick (rest : List Move) (hm : s.agenda = .tick :: rest) (hd : s.fallDue = false)
      (ht : t = (s.setAgenda rest).setNow (s.now + 1))
  /-- Reset. -/
  | reset (rest : List Move) (hm : s.agenda = .rst :: rest) (ht : t = (s.setAgenda rest).resetBlock)
  /-- A pulse falls, in the controller's turn or before a tick. -/
  | fall (a : List Move) (hd : s.fallDue = true)
      (ha : (s.agenda.head? = some .tick ∧ a = s.agenda) ∨
        (s.ctrlTurn = true ∧ a = s.turnTaken.agenda))
      (ht : t = (s.setAgenda a).fallStep)
  /-- The AUTO controller samples. -/
  | sample (hc : s.ctrlTurn = true) (hmode : s.cfg.mode = .auto) (hp : s.phase = .idle)
      (ht : t = s.turnTaken.sampleStep)
  /-- An opcode byte that takes arguments. -/
  | opens (hc : s.ctrlTurn = true) (hmode : s.cfg.mode = .cmd) (hp : s.phase = .idle)
      (b : Byte) (q : List Byte) (hq : s.rxq = b :: q) (n : Nat) (hn : argLen b = some (n + 1))
      (ht : t = (s.turnTaken.setRxq q).setPhase (.args (.start b (n + 1))))
  /-- An argument byte that is not the last. -/
  | collects (hc : s.ctrlTurn = true) (hmode : s.cfg.mode = .cmd) (p : PartialCommand)
      (hp : s.phase = .args p) (b : Byte) (q : List Byte) (hq : s.rxq = b :: q)
      (hn : p.argc + 1 ≠ p.need)
      (ht : t = (s.turnTaken.setRxq q).setPhase (.args (p.receive b)))
  /-- The last byte of a command. -/
  | executes (hc : s.ctrlTurn = true) (hmode : s.cfg.mode = .cmd) (b : Byte) (q : List Byte)
      (hq : s.rxq = b :: q) (i : Instr)
      (hsrc : (s.phase = .idle ∧ argLen b = none ∧ i = .unknown b) ∨
        (s.phase = .idle ∧ argLen b = some 0 ∧ i = instrOf b 0 0) ∨
        ∃ p, s.phase = .args p ∧ p.argc + 1 = p.need ∧
          i = instrOf p.opc (p.receive b).arg0 (p.receive b).arg1)
      (hx : ExecCase i ((s.turnTaken.setRxq q).setPhase .idle) t)
  /-- The controller's turn, with no step enabled. -/
  | waits (hc : s.ctrlTurn = true) (hd : s.dispatchEnabled = false) (hf : s.fallDue = false)
      (hs : s.sampleEnabled = false) (ht : t = s.turnTaken)

@[simp] theorem PartialCommand.receive_argc (p : PartialCommand) (b : Byte) :
    (p.receive b).argc = p.argc + 1 := by
  unfold receive; split <;> rfl

@[simp] theorem PartialCommand.receive_need (p : PartialCommand) (b : Byte) :
    (p.receive b).need = p.need := by
  unfold receive; split <;> rfl

@[simp] theorem PartialCommand.receive_opc (p : PartialCommand) (b : Byte) :
    (p.receive b).opc = p.opc := by
  unfold receive; split <;> rfl

/-- The command that a turn executes is the one its bytes decode to: the three ways `StepCase.executes`
gives its source are the three lengths of a command. -/
theorem decode_of_source {s : State} {b : Byte} {i : Instr} (hF : s.Framed)
    (hsrc : (s.phase = .idle ∧ argLen b = none ∧ i = .unknown b) ∨
      (s.phase = .idle ∧ argLen b = some 0 ∧ i = instrOf b 0 0) ∨
      ∃ p, s.phase = .args p ∧ p.argc + 1 = p.need ∧
        i = instrOf p.opc (p.receive b).arg0 (p.receive b).arg1) :
    decode (s.phase.bytes ++ [b]) = .ok (i, []) := by
  rcases hsrc with ⟨hp, hn, rfl⟩ | ⟨hp, hn, rfl⟩ | ⟨p, hp, hn, rfl⟩
  · simp [hp, Phase.bytes, decode, hn]
  · simp [hp, Phase.bytes, decode, hn]
  · obtain ⟨hl, -⟩ := hF p hp
    have h2 := argLen_le_two _ _ hl
    have hc : p.argc = 0 ∨ p.argc = 1 := by omega
    rcases hc with hc | hc
    · have hl : argLen p.opc = some 1 := by rw [hl, ← hn, hc]
      simp [hp, Phase.bytes, decode, hl, hc, PartialCommand.receive]
      exact instrOf_one _ b 0 p.arg1 hl
    · have hl : argLen p.opc = some 2 := by rw [hl, ← hn, hc]
      simp [hp, Phase.bytes, decode, hl, hc, PartialCommand.receive]

/-- In the controller's turn the step is the controller's. -/
theorem step_turn (s : State) (hc : s.ctrlTurn = true) : step s = controllerStep s.turnTaken := by
  unfold State.ctrlTurn at hc
  unfold step State.nextMove State.turnTaken State.setAgenda
  split at hc <;> simp_all

theorem setPhase_idle (s : State) (h : s.phase = .idle) : s.setPhase .idle = s := by
  unfold State.setPhase; rw [← h]

/-- What the controller's turn can do. -/
theorem turn_cases (s : State) (hc : s.ctrlTurn = true) :
    ∃ t, controllerStep s.turnTaken = .next t ∧ StepCase s t := by
  unfold controllerStep
  split
  · rename_i hd
    obtain ⟨hmode, hnh, hq⟩ := (State.dispatchEnabled_iff _).mp hd
    simp only [State.turnTaken_cfg, State.turnTaken_phase, State.turnTaken_rxq] at hmode hnh hq
    obtain ⟨b, q, hq⟩ : ∃ b q, s.rxq = b :: q := by
      cases h : s.rxq with
      | nil => exact absurd h hq
      | cons b q => exact ⟨b, q, rfl⟩
    have hpop : s.turnTaken.rxPop = some (b, s.turnTaken.setRxq q) := by
      simp [State.rxPop, hq]
    unfold dispatchStep
    rw [hpop]
    dsimp only
    rw [State.turnTaken_phase]
    cases hp : s.phase with
    | hold => exact absurd hp hnh
    | idle =>
      have hidle : (s.turnTaken.setRxq q).phase = .idle := hp
      dsimp only
      unfold opcodeByte execute
      split
      · rename_i hn
        obtain ⟨t, ht, hx⟩ := exec_cases (.unknown b) (s.turnTaken.setRxq q)
        refine ⟨t, ht, .executes hc hmode b q hq _ (.inl ⟨hp, hn, rfl⟩) ?_⟩
        rwa [setPhase_idle _ hidle]
      · rename_i hn
        obtain ⟨t, ht, hx⟩ := exec_cases (instrOf b 0 0) (s.turnTaken.setRxq q)
        refine ⟨t, ht, .executes hc hmode b q hq _ (.inr (.inl ⟨hp, hn, rfl⟩)) ?_⟩
        rwa [setPhase_idle _ hidle]
      · rename_i n hn
        exact ⟨_, rfl, .opens hc hmode hp b q hq n hn rfl⟩
    | args p =>
      dsimp only
      unfold argumentByte execute
      simp only [PartialCommand.receive_argc, PartialCommand.receive_need,
        PartialCommand.receive_opc]
      split
      · rename_i hn
        obtain ⟨t, ht, hx⟩ := exec_cases
          (instrOf p.opc (p.receive b).arg0 (p.receive b).arg1)
          ((s.turnTaken.setRxq q).setPhase .idle)
        exact ⟨t, ht, .executes hc hmode b q hq _ (.inr (.inr ⟨p, hp, hn, rfl⟩)) hx⟩
      · rename_i hn
        exact ⟨_, rfl, .collects hc hmode p hp b q hq hn rfl⟩
  · rename_i hd
    split
    · rename_i hf
      exact ⟨_, rfl, .fall _ hf (.inr ⟨hc, rfl⟩) rfl⟩
    · rename_i hf
      split
      · rename_i hs
        obtain ⟨hmode, hp⟩ := (State.sampleEnabled_iff _).mp hs
        exact ⟨_, rfl, .sample hc hmode hp rfl⟩
      · rename_i hs
        exact ⟨_, rfl, .waits hc (Bool.eq_false_iff.mpr hd) (Bool.eq_false_iff.mpr hf)
          (Bool.eq_false_iff.mpr hs) rfl⟩

/-- Every move answers a next state, in one of the ways of `StepCase`. -/
theorem step_next (s : State) : ∃ t, step s = .next t ∧ StepCase s t := by
  by_cases hc : s.ctrlTurn = true
  · rw [step_turn s hc]; exact turn_cases s hc
  · unfold step State.nextMove
    cases ha : s.agenda with
    | nil => simp [State.ctrlTurn, ha] at hc
    | cons m rest =>
      cases m with
      | ctrl => simp [State.ctrlTurn, ha] at hc
      | rx b => exact ⟨_, rfl, .arrives b rest ha rfl⟩
      | pins l d => exact ⟨_, rfl, .pins l d rest ha rfl⟩
      | rst => exact ⟨_, rfl, .reset rest ha rfl⟩
      | tick =>
        refine ⟨_, rfl, ?_⟩
        by_cases hd : s.fallDue = true
        · rw [if_pos hd]
          exact .fall s.agenda hd (.inl ⟨by simp [ha], rfl⟩) rfl
        · rw [if_neg hd]
          exact .tick rest ha (Bool.eq_false_iff.mpr hd) rfl

/-- The inversion lemma of `step`. -/
theorem step_cases {s t : State} (h : step s = .next t) : StepCase s t := by
  obtain ⟨u, hu, hc⟩ := step_next s
  rw [h] at hu
  cases hu
  exact hc

/-! ## Runs -/

namespace State

@[simp] theorem after_zero (s : State) : s.after 0 = some s := rfl

theorem after_succ {s t : State} (k : Nat) (h : step s = .next t) : s.after (k + 1) = t.after k := by
  simp [after, h]

/-- A run of one more move is a move and then the rest. -/
theorem after_succ_some {s u : State} {k : Nat} (h : s.after (k + 1) = some u) :
    ∃ t, step s = .next t ∧ t.after k = some u := by
  obtain ⟨t, ht, -⟩ := step_next s
  exact ⟨t, ht, by rwa [after_succ k ht] at h⟩

/-- What every move keeps, every run keeps: the one induction over runs. -/
theorem after_keeps (P : State → Prop) (hstep : ∀ s t, P s → step s = .next t → P t) :
    ∀ (k : Nat) (s t : State), P s → s.after k = some t → P t
  | 0, s, t, hp, h => by
    simp only [after_zero, Option.some.injEq] at h
    exact h ▸ hp
  | k + 1, s, t, hp, h => by
    obtain ⟨u, hu, hk⟩ := after_succ_some h
    exact after_keeps P hstep k u t (hstep s u hp hu) hk

end State

end Sys2Proof.Machine
end

