-- ==== Sys2Proof/Laws/Run.lean ====
section
/-! SUPPORT. Runs: the induction over a run, its agreement with `State.after`, and that every finite
sequence of possible moves goes on to a weakly fair, non-Zeno run (R79, R80). -/

namespace Sys2Proof.Machine

/-! ## The agenda after the next move has no effect on that move -/

theorem exec_setAgenda (i : Instr) (s : State) (a : List Move) :
    ∃ t, exec i s = .next t ∧ exec i (s.setAgenda a) = .next (t.setAgenda a) := by
  cases i with
  | setPulseDuration d => exact ⟨_, rfl, rfl⟩
  | pulseMask m => exact ⟨_, rfl, rfl⟩
  | setMaskHigh m => exact ⟨_, rfl, rfl⟩
  | setMaskLow m => exact ⟨_, rfl, rfl⟩
  | getButtonMask => exact ⟨_, rfl, rfl⟩
  | unknown o => exact ⟨_, rfl, rfl⟩
  | pulseLine k =>
    simp only [exec, execPulseLine]
    split <;> exact ⟨_, rfl, rfl⟩
  | setLineHigh k =>
    simp only [exec, execSetLineHigh, State.writeLine]
    split <;> exact ⟨_, rfl, rfl⟩
  | setLineLow k =>
    simp only [exec, execSetLineLow, State.writeLine]
    split <;> exact ⟨_, rfl, rfl⟩

theorem dispatchStep_setAgenda (s : State) (a : List Move) :
    ∃ t, dispatchStep s = .next t ∧ dispatchStep (s.setAgenda a) = .next (t.setAgenda a) := by
  unfold dispatchStep
  cases hq : s.rxq with
  | nil =>
    have h1 : s.rxPop = none := by simp [State.rxPop, hq]
    have h2 : (s.setAgenda a).rxPop = none := by simp [State.rxPop, hq]
    rw [h1, h2]
    exact ⟨_, rfl, rfl⟩
  | cons b q =>
    have h1 : s.rxPop = some (b, s.setRxq q) := by simp [State.rxPop, hq]
    have h2 : (s.setAgenda a).rxPop = some (b, (s.setRxq q).setAgenda a) := by
      simp [State.rxPop, hq]; rfl
    rw [h1, h2]
    dsimp only
    rw [State.setAgenda_phase]
    cases s.phase with
    | hold => exact ⟨_, rfl, rfl⟩
    | idle =>
      dsimp only [opcodeByte, execute]
      split
      · exact exec_setAgenda _ _ a
      · exact exec_setAgenda _ _ a
      · exact ⟨_, rfl, rfl⟩
    | args p =>
      dsimp only [argumentByte, execute]
      split
      · exact exec_setAgenda _ ((s.setRxq q).setPhase .idle) a
      · exact ⟨_, rfl, rfl⟩

theorem fallStep_setAgenda (s : State) (a : List Move) :
    (s.setAgenda a).fallStep = s.fallStep.setAgenda a := by
  by_cases h : s.cfg.mode = .auto ∧ s.cfg.autoLog = true <;>
    simp [State.fallStep, h, State.emitLogLine, State.txAppend, State.drawn, State.setPhase,
      State.outWrite, State.setAgenda]

theorem sampleStep_setAgenda (s : State) (a : List Move) :
    (s.setAgenda a).sampleStep = s.sampleStep.setAgenda a := by
  have hm : (s.setAgenda a).inputMask = s.inputMask := rfl
  have hr : (s.setAgenda a).drawn.timerRipe = s.drawn.timerRipe := rfl
  unfold State.sampleStep State.sampleInputs State.watchRelease
  dsimp only
  rw [hm, hr]
  cases ha : s.arm <;> cases hv : s.relValid <;> by_cases h0 : s.inputMask = 0#8 <;>
    by_cases ht : s.drawn.timerRipe = true <;> simp [ha, hv, h0, ht] <;> rfl

theorem controllerStep_setAgenda (s : State) (a : List Move) :
    ∃ t, controllerStep s = .next t ∧ controllerStep (s.setAgenda a) = .next (t.setAgenda a) := by
  have h1 : (s.setAgenda a).dispatchEnabled = s.dispatchEnabled := rfl
  have h2 : (s.setAgenda a).fallEnabled = s.fallEnabled := rfl
  have h3 : (s.setAgenda a).sampleEnabled = s.sampleEnabled := rfl
  unfold controllerStep
  rw [h1, h2, h3, fallStep_setAgenda, sampleStep_setAgenda]
  split
  · exact dispatchStep_setAgenda s a
  · split
    · exact ⟨_, rfl, rfl⟩
    · split <;> exact ⟨_, rfl, rfl⟩

namespace State

theorem setAgenda_setAgenda (s : State) (a b : List Move) :
    (s.setAgenda a).setAgenda b = s.setAgenda b := rfl

theorem receive_setAgenda (s : State) (a : List Move) (b : Byte) :
    (s.setAgenda a).receive b = (s.receive b).setAgenda a := by
  unfold receive
  cases hm : s.cfg.mode <;> by_cases hq : s.rxq.length < s.cfg.rxDepth <;> simp [hm, hq] <;> rfl

/-- A possible move does not look at the moves after it, and leaves them to come. -/
theorem step_of_make {s t : State} {m : Move} (hm : s.admits m = true) (h : s.make m = .next t)
    (rest : List Move) : t.agenda = [] ∧ step (s.setAgenda (m :: rest)) = .next (t.setAgenda rest) := by
  unfold make step nextMove at h
  unfold step nextMove
  cases m with
  | rx b =>
    simp only [setAgenda_agenda, setAgenda_setAgenda, receive_setAgenda, Host.Outcome.next.injEq] at h ⊢
    subst h
    exact ⟨rfl, rfl⟩
  | pins l d =>
    cases h
    exact ⟨rfl, rfl⟩
  | rst =>
    cases h
    exact ⟨rfl, rfl⟩
  | tick =>
    have hd : s.fallDue = false := by simpa [admits, tickEnabled] using hm
    have hd' : ∀ a, (s.setAgenda a).fallDue = false := fun _ => hd
    simp only [setAgenda_agenda, hd', Bool.false_eq_true, if_false] at h ⊢
    cases h
    exact ⟨rfl, rfl⟩
  | ctrl =>
    simp only [setAgenda_agenda, setAgenda_setAgenda] at h ⊢
    obtain ⟨u, h1, h2⟩ := controllerStep_setAgenda s []
    obtain ⟨u', h1', h3⟩ := controllerStep_setAgenda s rest
    rw [h1] at h1'
    cases h1'
    rw [h2] at h
    cases h
    exact ⟨rfl, h3⟩

/-- Every move answers a next state. -/
theorem make_next (s : State) (m : Move) : ∃ t, s.make m = .next t := by
  obtain ⟨t, h, -⟩ := step_next (s.setAgenda [m])
  exact ⟨t, h⟩

theorem play_cons {s u : State} {m : Move} {rest : List Move} (h : s.play (m :: rest) = some u) :
    s.admits m = true ∧ ∃ t, s.make m = .next t ∧ t.play rest = some u := by
  obtain ⟨t, ht⟩ := s.make_next m
  simp only [play, ht] at h
  split at h
  · exact ⟨‹_›, t, ht, h⟩
  · cases h

end State

/-! ## Along a run -/

namespace Run

/-- What every move keeps holds all along a lawful run: the one induction over infinite runs. -/
theorem keeps {r : Run} (hl : r.lawful) (P : State → Prop) (h0 : P (r.state 0))
    (hstep : ∀ s m t, P s → s.admits m = true → s.make m = .next t → P t) : ∀ k, P (r.state k)
  | 0 => h0
  | k + 1 => hstep _ _ _ (keeps hl P h0 hstep k) (hl k).1 (hl k).2

/-- The first `k` moves of a run, announced as an agenda, lead `step` to the run's state `k`: what
holds of every state `State.after` reaches holds of every state of every run. -/
theorem after_firstMoves {r : Run} (hl : r.lawful) (k : Nat) (later : List Move) :
    ((r.state 0).setAgenda (r.firstMoves k ++ later)).after k = some ((r.state k).setAgenda later) := by
  have run : ∀ n (s : State) (f : Nat → Move) (σ : Nat → State), σ 0 = s →
      (∀ i, (σ i).admits (f i) = true ∧ (σ i).make (f i) = .next (σ (i + 1))) →
      (s.setAgenda ((List.range n).map f ++ later)).after n = some ((σ n).setAgenda later) := by
    intro n
    induction n with
    | zero => intro s f σ h0 _; simp [← h0]
    | succ n ih =>
      intro s f σ h0 hs
      rw [List.range_succ_eq_map, List.map_cons, List.cons_append, List.map_map]
      obtain ⟨-, h1⟩ := State.step_of_make (hs 0).1 (hs 0).2
        ((List.range n).map (f ∘ Nat.succ) ++ later)
      rw [← h0, State.after_succ n h1]
      exact ih _ (f ∘ Nat.succ) (fun i => σ (i + 1)) rfl (fun i => hs (i + 1))
  exact run k _ r.move r.state rfl hl

end Run

/-! ## Every possible beginning goes on -/

/-- A scheduler: first the moves asked for; then the controller whenever a fall is due or, after a
tick, whenever one of its steps is enabled; else a tick. -/
structure Sched where
  state : State
  ticked : Bool
  asked : List Move

namespace Sched

def move (x : Sched) : Move :=
  match x.asked with
  | m :: _ => m
  | [] => if x.state.fallDue || (x.ticked && x.state.ctrlEnabled) then .ctrl else .tick

def succ (x : Sched) : Sched :=
  { state := match x.state.make x.move with
      | .next t => t
      | .fault _ => x.state
      | .refused _ => x.state
    ticked := decide (x.move = .tick)
    asked := x.asked.tail }

def iter (x : Sched) : Nat → Sched
  | 0 => x
  | k + 1 => (x.iter k).succ

theorem iter_add (x : Sched) (n : Nat) : ∀ k, x.iter (n + k) = (x.iter n).iter k
  | 0 => rfl
  | k + 1 => by
    show (x.iter (n + k)).succ = _
    rw [iter_add x n k]
    rfl

def run (x : Sched) : Run := { state := fun k => (x.iter k).state, move := fun k => (x.iter k).move }

theorem succ_state {x : Sched} {t : State} (h : x.state.make x.move = .next t) : x.succ.state = t := by
  simp [succ, h]

theorem make_move (x : Sched) : x.state.make x.move = .next x.succ.state := by
  obtain ⟨t, h⟩ := x.state.make_next x.move
  rw [succ_state h, h]

/-- The moves asked for can be made. -/
def ok (x : Sched) : Prop := ∃ t, x.state.play x.asked = some t

theorem ok_admits {x : Sched} (h : x.ok) : x.state.admits x.move = true := by
  obtain ⟨t, h⟩ := h
  unfold move
  cases ha : x.asked with
  | cons m rest => rw [ha] at h; exact (State.play_cons h).1
  | nil =>
    dsimp only
    split
    · rename_i hc
      simp only [State.admits, State.ctrlEnabled, Bool.or_eq_true, Bool.and_eq_true] at hc ⊢
      rcases hc with hc | hc
      · exact .inl (.inr hc)
      · exact hc.2
    · rename_i hc
      simp only [Bool.or_eq_true, not_or] at hc
      simpa [State.admits, State.tickEnabled] using hc.1

theorem ok_succ {x : Sched} (h : x.ok) : x.succ.ok := by
  obtain ⟨t, h⟩ := h
  unfold ok
  cases ha : x.asked with
  | nil => exact ⟨x.succ.state, by rw [show x.succ.asked = [] by simp [succ, ha]]; rfl⟩
  | cons m rest =>
    rw [ha] at h
    obtain ⟨-, u, hu, hp⟩ := State.play_cons h
    have hm : x.move = m := by simp [move, ha]
    exact ⟨t, by rw [succ_state (t := u) (hm ▸ hu)]; simpa [succ, ha] using hp⟩

theorem ok_iter {x : Sched} (h : x.ok) : ∀ k, (x.iter k).ok
  | 0 => h
  | k + 1 => ok_succ (ok_iter h k)

theorem run_lawful {x : Sched} (h : x.ok) : x.run.lawful := fun k =>
  ⟨ok_admits (ok_iter h k), make_move (x.iter k)⟩

theorem iter_asked (x : Sched) : ∀ k, (x.iter k).asked = x.asked.drop k
  | 0 => rfl
  | k + 1 => by
    show (x.iter k).asked.tail = _
    rw [iter_asked x k, List.tail_drop]

/-- After the moves asked for, a tick is at most two moves away. -/
theorem tick_soon {x : Sched} (ha : x.asked = []) : ∃ k, x.run.move k = .tick := by
  by_cases h0 : x.move = .tick
  · exact ⟨0, h0⟩
  have ha1 : x.succ.asked = [] := by simp [succ, ha]
  have ht1 : x.succ.ticked = false := by simp [succ, h0]
  by_cases hd : x.succ.state.fallDue = true
  · refine ⟨2, ?_⟩
    have hc : x.succ.move = .ctrl := by simp [move, ha1, hd]
    have hidle : x.succ.succ.state.phase = .idle := by
      obtain ⟨hp, hn⟩ := (State.fallDue_iff _).mp hd
      have hm := x.succ.make_move
      rw [hc] at hm
      obtain ⟨u, h1, h2⟩ := controllerStep_setAgenda x.succ.state []
      have hm' : controllerStep (x.succ.state.setAgenda []) = .next x.succ.succ.state := hm
      have hdisp : x.succ.state.dispatchEnabled = false := by simp [State.dispatchEnabled, hp]
      have hfall : x.succ.state.fallEnabled = true := hd
      rw [h2] at hm'
      simp only [controllerStep, hdisp, hfall, Bool.false_eq_true, if_false, if_true,
        Host.Outcome.next.injEq] at h1
      rw [← Host.Outcome.next.inj hm', State.setAgenda_phase, ← h1]
      obtain ⟨l, n, e, -⟩ := State.fallStep_cases x.succ.state
      rw [e]
    have ha2 : x.succ.succ.asked = [] := by simp [succ, ha]
    have ht2 : x.succ.succ.ticked = false := by
      rw [succ]; simp [hc]
    show x.succ.succ.move = .tick
    unfold move
    rw [ha2, ht2]
    simp [State.fallDue, hidle]
  · exact ⟨1, by
      show x.succ.move = .tick
      unfold move
      rw [ha1, ht1]
      simp [hd]⟩

theorem run_nonZeno (x : Sched) : x.run.nonZeno := by
  intro n
  let m := n + x.asked.length
  have ha : (x.iter m).asked = [] := by rw [iter_asked]; exact List.drop_eq_nil_of_le (by omega)
  obtain ⟨k, hk⟩ := tick_soon ha
  refine ⟨m + k, by omega, ?_⟩
  show (x.iter (m + k)).move = .tick
  rw [iter_add]
  exact hk

theorem run_weaklyFair (x : Sched) : x.run.weaklyFair := by
  intro p n hn
  obtain ⟨k, hk, ht⟩ := x.run_nonZeno (n + x.asked.length)
  by_cases hp : p = .tick
  · exact ⟨k, by omega, hn k (by omega), by rw [ht, hp]; rfl⟩
  refine ⟨k + 1, by omega, hn (k + 1) (by omega), ?_⟩
  have ha : (x.iter (k + 1)).asked = [] := by
    rw [iter_asked]; exact List.drop_eq_nil_of_le (by omega)
  have hticked : (x.iter (k + 1)).ticked = true := by
    show decide ((x.iter k).move = .tick) = true
    exact decide_eq_true ht
  have he : (x.iter (k + 1)).state.ctrlEnabled = true := by
    have := hn (k + 1) (by omega)
    unfold State.ctrlEnabled
    cases p with
    | dispatch => simp only [ProgressKind.enabled] at this; simp [show (x.iter (k + 1)).state.dispatchEnabled = true from this]
    | fall => simp [show (x.iter (k + 1)).state.fallEnabled = true from this]
    | sample => simp [show (x.iter (k + 1)).state.sampleEnabled = true from this]
    | tick => exact absurd rfl hp
  show (x.iter (k + 1)).move = p.move
  have : (x.iter (k + 1)).move = .ctrl := by
    unfold move
    rw [ha]
    simp [hticked, he]
  rw [this]
  cases p <;> first | rfl | exact absurd rfl hp

end Sched

/-- Every finite sequence of moves that can be made from a power-up state begins an admitted run
(R80): the admitted runs are neither empty nor too few. -/
theorem admitted_of_play (c : Config) (level driven : Byte) (moves : List Move) (t : State)
    (hc : c.wf = true) (h : (State.powerUp c level driven []).play moves = some t) :
    ∃ r : Run, r.admitted ∧ r.state 0 = State.powerUp c level driven [] ∧
      r.firstMoves moves.length = moves ∧ r.state moves.length = t := by
  let x : Sched := ⟨State.powerUp c level driven [], true, moves⟩
  have run : ∀ (ms : List Move) (y : Sched), y.asked = ms → y.state.play ms = some t →
      y.run.firstMoves ms.length = ms ∧ (y.iter ms.length).state = t := by
    intro ms
    induction ms with
    | nil => intro y _ hp; simp only [State.play, Option.some.injEq] at hp; exact ⟨rfl, hp⟩
    | cons m rest ih =>
      intro y ha hp
      obtain ⟨-, u, hu, hp⟩ := State.play_cons hp
      have hm : y.move = m := by simp [Sched.move, ha]
      have hs : y.succ.state = u := Sched.succ_state (hm ▸ hu)
      obtain ⟨h1, h2⟩ := ih y.succ (by simp [Sched.succ, ha]) (hs ▸ hp)
      have shift : ∀ k, y.iter (k + 1) = y.succ.iter k := fun k => by
        rw [Nat.add_comm, Sched.iter_add]; rfl
      constructor
      · rw [List.length_cons, Run.firstMoves, List.range_succ_eq_map, List.map_cons, List.map_map]
        congr 1
        conv_rhs => rw [← h1]
        unfold Run.firstMoves
        apply List.map_congr_left
        intro k _
        show (y.iter (k + 1)).move = _
        rw [shift]
        rfl
      · rw [List.length_cons, shift]; exact h2
  obtain ⟨h1, h2⟩ := run moves x rfl h
  exact ⟨x.run, ⟨⟨c, level, driven, hc, rfl⟩, Sched.run_lawful ⟨t, h⟩, x.run_weaklyFair, x.run_nonZeno⟩,
    rfl, h1, h2⟩

end Sys2Proof.Machine
end

