-- ==== Sys2Proof/Tests/Slice0.lean ====
section
/-! SUPPORT. Tests and witnesses. Every expected value is the spec's: the vector (V-…, 95_test_vectors.md)
or the rule it is taken from is named beside it. A witness shows a state and operands that meet all
hypotheses of the statement it is named after, at a boundary of their range. -/

namespace Sys2Proof.Tests

open Sys2Proof Sys2Proof.Machine

/-! ## Small states -/

/-- Power-up in the conventions of the vectors, every input pin driven high. -/
def cmd (agenda : List Move) : State := State.powerUp Config.reference 0xFF 0xFF agenda

/-- The same, with the received bytes `q` and the controller's turn next. -/
def cmdWith (q : List Byte) : State := (cmd [.ctrl]).setRxq q

/-- Idle at time 100 with `OUT = out`, the start of the vectors of 2.3 and 2.4. -/
def at100 (out : Byte) : State := { cmd [] with out := out, now := 100 }

/-- The AUTO build of the vectors of 2.6, at time `now`, with the logical input mask `m`. -/
def auto (now : Nat) (m : Byte) (agenda : List Move) : State :=
  (State.powerUp { Config.reference with mode := .auto } (~~~ m) 0xFF agenda).setNow now

/-- The same, DISARMED, with the timer as given. -/
def waiting (now : Nat) (m : Byte) (valid : Bool) (start : Nat) : State :=
  { auto now m [.ctrl] with arm := .disarmed, relValid := valid, relStart := start }

/-- A pulse on lines 0 and 1 held from 0 to 5 (V-R2), at time `now`. -/
def holding (now : Nat) (agenda : List Move) : State :=
  { cmd agenda with out := 0x03, phase := .hold, hmask := 0x03, deadline := 5, now := now }

/-- The AUTO pulse of V-F1, its fall due, released, with an interval of 0 ticks. -/
def falling (agenda : List Move) : State :=
  { State.powerUp { Config.reference with mode := .auto, relInterval := 0 } 0xFF 0xFF agenda with
    out := 0x01, phase := .hold, hmask := 0x01, deadline := 55, now := 55, arm := .disarmed }

/-! ## Well-formedness: the one check there is (R55) -/

theorem test_wellFormed_refuses_defined_opcodes :
    (Instr.unknown 0x0A).wellFormed = false ∧ (Instr.unknown 0x10).wellFormed = false ∧
      (Instr.unknown 0x14).wellFormed = false := by decide

theorem test_wellFormed_admits_the_edges :
    (Instr.unknown 9).wellFormed ∧ (Instr.unknown 17).wellFormed ∧ (Instr.unknown 19).wellFormed ∧
      (Instr.unknown 21).wellFormed ∧ (Instr.unknown 255).wellFormed := by decide

/-! ## Decoding: words written out from the encodings of opcode_table.json -/

/-- `00001010 llllllll hhhhhhhh`: V-S3, V-S5. -/
theorem test_decode_setPulseDuration :
    decode [0b00001010, 0b00110100, 0b00010010] = .ok (.setPulseDuration 0x1234, []) ∧
      decode [0b00001010, 0b00000000, 0b00000001] = .ok (.setPulseDuration 256, []) := by decide

/-- `00001011 aaaaaaaa`: V-D5, where the argument is 20. -/
theorem test_decode_pulseMask : decode [0b00001011, 0b00010100] = .ok (.pulseMask 0x14, []) := by decide

/-- `00001100 aaaaaaaa`: V-P8. -/
theorem test_decode_pulseLine : decode [0b00001100, 0b00000111] = .ok (.pulseLine 7, []) := by decide

/-- `00001101 aaaaaaaa`: V-L1. -/
theorem test_decode_setMaskHigh : decode [0b00001101, 0b11110000] = .ok (.setMaskHigh 0xF0, []) := by decide

/-- `00001110 aaaaaaaa`: V-L4. -/
theorem test_decode_setMaskLow : decode [0b00001110, 0b00001111] = .ok (.setMaskLow 0x0F, []) := by decide

/-- `00001111 aaaaaaaa`: V-L7. -/
theorem test_decode_setLineHigh : decode [0b00001111, 0b00000011] = .ok (.setLineHigh 3, []) := by decide

/-- `00010000 aaaaaaaa`: V-L13. -/
theorem test_decode_setLineLow : decode [0b00010000, 0b11111111] = .ok (.setLineLow 255, []) := by decide

/-- `00010100`: E2. The byte after it is the next command's. -/
theorem test_decode_getButtonMask : decode [0b00010100, 0x0B] = .ok (.getButtonMask, [0x0B]) := by decide

/-- V-D7: 0x11 is one command, and `0D 01` the next. -/
theorem test_decode_unknown : decode [0x11, 0x0D, 0x01] = .ok (.unknown 0x11, [0x0D, 0x01]) := by decide

/-- V-D2, V-D4 (R72): a command that lacks arguments is none yet. -/
theorem test_decode_missing :
    decode [0x0A, 0x05] = .error (.missingArguments 0x0A 2 1) ∧
      decode [0x0B] = .error (.missingArguments 0x0B 1 0) ∧ decode [] = .error .noOpcode := by decide

/-- P2: the program assembles to the bytes the spec prints (R58). -/
theorem test_assemble_p2 :
    assemble [.command (.setMaskHigh 0x81), .command (.setLineLow 0), .command (.setLineHigh 3),
      .command (.setMaskLow 0x80), .command (.setLineHigh 9), .command .getButtonMask] =
    [0x0D, 0x81, 0x10, 0x00, 0x0F, 0x03, 0x0E, 0x80, 0x0F, 0x09, 0x14] := by decide

/-- P3: a line of bytes and two commands (R58). -/
theorem test_assemble_p3 :
    assemble [.byte 0x0B, .command .getButtonMask, .command .getButtonMask] = [0x0B, 0x14, 0x14] := by
  decide

/-! ## The commands: at most two tests each -/

/-- V-S2. -/
theorem test_setPulseDuration_ffff :
    ∃ t, exec (.setPulseDuration 0xFFFF) (cmd []) = .next t ∧ t.dur.toNat = 65535 ∧ t.out = 0 :=
  ⟨_, rfl, rfl, rfl⟩

/-- V-P5: the rise at 100 keeps lines 4 to 7, and the fall is set for 105. -/
theorem test_pulseMask_keeps_other_lines :
    ∃ t, exec (.pulseMask 0x0F) (at100 0xF0) = .next t ∧ t.out = 0xFF ∧ t.hmask = 0x0F ∧
      t.deadline = 105 ∧ t.outTrace = [(0, 0x00), (100, 0xFF)] ∧ t.phase = .hold :=
  ⟨_, rfl, by decide, rfl, by decide, by decide, rfl⟩

/-- V-P3: the empty mask is held too, and the rise is recorded. -/
theorem test_pulseMask_empty :
    ∃ t, exec (.pulseMask 0x00) (at100 0x10) = .next t ∧ t.out = 0x10 ∧ t.phase = .hold ∧
      t.outTrace = [(0, 0x00), (100, 0x10)] :=
  ⟨_, rfl, by decide, rfl, by decide⟩

/-- V-P8. -/
theorem test_pulseLine_seven :
    ∃ t, exec (.pulseLine 7) (at100 0x00) = .next t ∧ t.out = 0x80 ∧ t.hmask = 0x80 ∧
      t.deadline = 105 :=
  ⟨_, rfl, by decide, by decide, by decide⟩

/-- V-P9. -/
theorem test_pulseLine_eight : exec (.pulseLine 8) (at100 0x42) = .next (at100 0x42) := rfl

/-- V-L1. -/
theorem test_setMaskHigh :
    ∃ t, exec (.setMaskHigh 0xF0) (at100 0x0F) = .next t ∧ t.out = 0xFF :=
  ⟨_, rfl, by decide⟩

/-- V-L2: a write that changes nothing is recorded. -/
theorem test_setMaskHigh_records :
    ∃ t, exec (.setMaskHigh 0x00) (at100 0x0F) = .next t ∧
      t.outTrace = [(0, 0x00), (100, 0x0F)] :=
  ⟨_, rfl, by decide⟩

/-- V-L4. -/
theorem test_setMaskLow :
    ∃ t, exec (.setMaskLow 0x0F) (at100 0xFF) = .next t ∧ t.out = 0xF0 :=
  ⟨_, rfl, by decide⟩

/-- V-L7. -/
theorem test_setLineHigh :
    ∃ t, exec (.setLineHigh 3) (at100 0x00) = .next t ∧ t.out = 0x08 :=
  ⟨_, rfl, by decide⟩

/-- V-L9. -/
theorem test_setLineHigh_eight : exec (.setLineHigh 8) (at100 0x00) = .next (at100 0x00) := rfl

/-- V-L12. -/
theorem test_setLineLow :
    ∃ t, exec (.setLineLow 7) (at100 0x81) = .next t ∧ t.out = 0x01 :=
  ⟨_, rfl, by decide⟩

/-- V-L13. -/
theorem test_setLineLow_255 : exec (.setLineLow 255) (at100 0x81) = .next (at100 0x81) := rfl

/-- V-I3, E2: lines 2 and 5 grounded. -/
theorem test_getButtonMask_activeLow :
    ∃ t, exec .getButtonMask ((cmd []).setPins 0xDB 0xFF) = .next t ∧ t.txLog = [0x24] :=
  ⟨_, rfl, by decide⟩

/-- V-I4, with every pin driven. -/
theorem test_getButtonMask_activeHigh :
    ∃ t, exec .getButtonMask
        (State.powerUp { Config.reference with pol := .activeHigh } 0x24 0xFF []) = .next t ∧
      t.txLog = [0x24] :=
  ⟨_, rfl, by decide⟩

/-- V-I8, at the last value. -/
theorem test_unknown : exec (.unknown 0xFF) (at100 0x42) = .next (at100 0x42) := rfl

/-! ## Moves -/

/-- V-D5: the argument 0x14 of a waiting `pulse_mask` executes it. -/
theorem test_step_argument_byte :
    ∃ t, step ((cmdWith [0x14]).setPhase (.args (.start 0x0B 1))) = .next t ∧ t.out = 0x14 ∧
      t.txLog = [] ∧ t.rxq = [] :=
  ⟨_, rfl, by decide, rfl, rfl⟩

/-- V-D2: after `0A`, the byte 05. -/
theorem test_step_first_of_two :
    ∃ t, step ((cmdWith [0x05]).setPhase (.args (.start 0x0A 2))) = .next t ∧ t.dur = 5 ∧
      t.phase = .args { opc := 10, need := 2, argc := 1, arg0 := 0x05, arg1 := 0x00 } :=
  ⟨_, rfl, rfl, by decide⟩

/-- V-R2: a reset during a hold. -/
theorem test_step_reset :
    ∃ t, step (holding 2 [.rst]) = .next t ∧ t.out = 0x00 ∧ t.phase = .idle ∧ t.now = 2 ∧
      t.outTrace = [(0, 0x00), (2, 0x00)] :=
  ⟨_, rfl, rfl, rfl, rfl, by decide⟩

/-- V-F1. -/
theorem test_step_fire :
    ∃ t, step (auto 50 0x04 [.ctrl]) = .next t ∧ t.arm = .disarmed ∧ t.out = 0x01 ∧
      t.deadline = 55 ∧ t.phase = .hold :=
  ⟨_, rfl, by decide, by decide, by decide, by decide⟩

/-- V-F5 and V-F6: the zero sample at 66 re-arms, the one at 65 does not. -/
theorem test_step_rearm :
    (∃ t, step (waiting 66 0x00 true 56) = .next t ∧ t.arm = .armed ∧ t.relValid = false) ∧
      ∃ t, step (waiting 65 0x00 true 56) = .next t ∧ t.arm = .disarmed ∧ t.relValid = true :=
  ⟨⟨_, rfl, by decide, by decide⟩, ⟨_, rfl, by decide, by decide⟩⟩

/-- A word of the opcode table, placed and stepped: V-S3 and V-P1. -/
theorem test_step_of_placed_words :
    (∃ t, step (State.reset.withFetchWord 24 0x12340A) = .next t ∧ t.dur = 0x1234) ∧
      ∃ t, step (State.reset.withFetchWord 16 0x810B) = .next t ∧ t.out = 0x81 :=
  ⟨⟨_, rfl, by decide⟩, ⟨_, rfl, by decide⟩⟩

/-! ## Witnesses: encoding -/

theorem witness_DecodeOfEncodedCommand :
    (Instr.unknown 255).wellFormed = true ∧ (Instr.setPulseDuration 0xFFFF).wellFormed = true := by
  decide

theorem witness_EncodeOfDecodedCommand :
    decode [0x0A, 0xFF, 0xFF, 0x14] = .ok (.setPulseDuration 0xFFFF, [0x14]) := by decide

/-- Both disjuncts, one argument short of two. -/
theorem witness_DecodeRejectsOnlyMissingBytes :
    decode [] = .error .noOpcode ∧
      decode [0x0A, 0x14] = .error (.missingArguments 0x0A 2 1) := by decide

/-- Each clause at its edges. -/
theorem witness_ArgLenOfEveryByte :
    (10 : Byte).toNat = 10 ∧ (11 ≤ (11 : Byte).toNat ∧ (16 : Byte).toNat ≤ 16) ∧
      (20 : Byte).toNat = 20 ∧ (9 : Byte).toNat ≤ 9 ∧
      (17 ≤ (17 : Byte).toNat ∧ (19 : Byte).toNat ≤ 19) ∧ 21 ≤ (21 : Byte).toNat ∧
      21 ≤ (255 : Byte).toNat := by decide

/-! ## Witnesses: commands -/

/-- The clauses of an index operand do not overlap: 7 names a line, 8 and 255 name none. Witness of
`PulseLineResult`, `PulseLineActsAsPulseMask`, `SetLineHighResult`, `SetLineLowResult`,
`OutOfRangeIndexIgnored` and `WriteLineResult`. -/
theorem witness_index_clauses :
    (0 : Byte).toNat < 8 ∧ (7 : Byte).toNat < 8 ∧ 8 ≤ (8 : Byte).toNat ∧ 8 ≤ (255 : Byte).toNat := by
  decide

/-- A driven line, and an open one with ACTIVE_LOW (V-G3). -/
theorem witness_GetButtonMaskResult :
    (cmd []).pinDriven.getLsbD 7 = true ∧
      (State.reset.pinDriven.getLsbD 7 = false ∧ State.reset.cfg.pol = .activeLow) := by decide

theorem witness_UnknownOpcodeDiscarded :
    (9 : Byte).toNat ≤ 9 ∧ (cmdWith [9, 0x14]).cfg.mode = .cmd ∧ (cmdWith [9, 0x14]).phase = .idle ∧
      (cmdWith [9, 0x14]).rxq = 9 :: [0x14] ∧ (cmdWith [9, 0x14]).ctrlTurn = true := by decide

theorem witness_OnlyOpcode20Answers : Instr.pulseMask 0x14 ≠ .getButtonMask := by decide

theorem witness_ButtonMaskRepeats : ∃ t u v,
    (cmd []).inputsSteady ∧ exec .getButtonMask (cmd []) = .next t ∧
      t.txLog = (cmd []).txLog ++ [0x00] ∧ exec (.pulseMask 0xFF) t = .next u ∧
      exec .getButtonMask u = .next v :=
  ⟨_, _, _, .inl rfl, rfl, by decide, rfl, rfl⟩

theorem witness_OfCommandsOnlyOpcode20ReadsInputs : Instr.setLineLow 7 ≠ .getButtonMask := by decide

/-! ## Witnesses: dispatcher -/

theorem framed_start (s : State) (op : Byte) (n : Nat) (h : argLen op = some (n + 1)) :
    (s.setPhase (.args (.start op (n + 1)))).Framed := by
  intro p hp
  cases hp
  exact ⟨h, Nat.succ_pos n⟩

/-- After `0B`, the byte 14 (V-D5). -/
theorem witness_StepRunsDecodedCommand :
    let s := (cmdWith [0x14, 0x0F]).setPhase (.args (.start 0x0B 1))
    s.Framed ∧ s.cfg.mode = .cmd ∧ s.phase ≠ .hold ∧ s.rxq = 0x14 :: [0x0F] ∧ s.ctrlTurn = true ∧
      decode (s.phase.bytes ++ [0x14]) = .ok (.pulseMask 0x14, []) :=
  ⟨framed_start _ _ 0 (by decide), by decide, by decide, by decide, by decide, by decide⟩

/-- An opcode byte, and the first of two argument bytes (V-D4, V-D2). -/
theorem witness_StepCollectsArguments :
    (let s := cmdWith [0x0B]
     s.Framed ∧ s.cfg.mode = .cmd ∧ s.phase ≠ .hold ∧ s.rxq = 0x0B :: [] ∧ s.ctrlTurn = true ∧
      decode (s.phase.bytes ++ [0x0B]) = .error (.missingArguments 0x0B 1 0)) ∧
    (let s := (cmdWith [0x05]).setPhase (.args (.start 0x0A 2))
     s.Framed ∧ s.cfg.mode = .cmd ∧ s.phase ≠ .hold ∧ s.rxq = 0x05 :: [] ∧ s.ctrlTurn = true ∧
      decode (s.phase.bytes ++ [0x05]) = .error (.missingArguments 0x0A 2 1)) :=
  ⟨⟨fun p h => by (cases h), by decide, by decide, by decide, by decide, by decide⟩,
    ⟨framed_start _ _ 1 (by decide), by decide, by decide, by decide, by decide, by decide⟩⟩

theorem witness_CommandBytesExecute :
    let i := Instr.setPulseDuration 0xFFFF
    let s := (cmd (List.replicate 3 Move.ctrl ++ [.tick])).setRxq [0x0A, 0xFF, 0xFF, 0x14]
    i.wellFormed = true ∧ s.cfg.mode = .cmd ∧ s.phase = .idle ∧ s.rxq = encode i ++ [0x14] ∧
      s.agenda = List.replicate (encode i).length Move.ctrl ++ [.tick] := by decide

/-- The three clauses. -/
theorem witness_ByteTakenExactlyWhenEnabled :
    ((cmdWith [0x14]).ctrlTurn = true ∧ ∃ t, step (cmdWith [0x14]) = .next t) ∧
    ((cmdWith []).ctrlTurn = true ∧ (cmdWith []).cfg.mode = .cmd ∧ (cmdWith []).phase ≠ .hold ∧
      (cmdWith []).rxq = []) ∧
    ((holding 5 [.tick]).phase = .hold ∧ (holding 5 [.tick]).agenda.head? ≠ some .rst ∧
      ∃ t, step (holding 5 [.tick]) = .next t) :=
  ⟨⟨by decide, _, rfl⟩, by decide, by decide, by decide, _, rfl⟩

theorem witness_PartialCommandWaits :
    let s := (cmd [.ctrl, .tick, .pins 0 0xFF]).setPhase (.args (.start 0x0B 1))
    s.cfg.mode = .cmd ∧ s.phase = .args (.start 0x0B 1) ∧ s.rxq = [] ∧ s.noReset ∧
      (∀ b, Move.rx b ∉ s.agenda) ∧ ∃ t, s.after 3 = some t :=
  ⟨rfl, rfl, rfl, by simp [State.noReset, State.setPhase, cmd, State.powerUp],
    by simp [State.setPhase, cmd, State.powerUp], _, rfl⟩

theorem witness_CommandEndsReady : (cmd []).phase = .idle := rfl

/-- One byte below the depth, at the depth, and AUTO mode. -/
theorem witness_ByteArrival :
    (let s := (cmd [.rx 0x14]).setRxq (List.replicate 15 0x00)
     s.agenda = .rx 0x14 :: [] ∧ s.cfg.mode = .cmd ∧ s.rxq.length < s.cfg.rxDepth) ∧
    (let s := (cmd [.rx 0x14]).setRxq (List.replicate 16 0x00)
     s.agenda = .rx 0x14 :: [] ∧ s.cfg.mode = .cmd ∧ s.cfg.rxDepth ≤ s.rxq.length) ∧
    ((auto 0 0 [.rx 0x0D]).agenda = .rx 0x0D :: [] ∧ (auto 0 0 [.rx 0x0D]).cfg.mode = .auto) := by
  decide

theorem witness_InputChange : (cmd [.pins 0xFE 0xFF]).agenda = .pins 0xFE 0xFF :: [] := rfl

/-- One tick before the deadline, and at it. -/
theorem witness_TickWaitsForFall :
    ((holding 4 [.tick]).agenda = .tick :: [] ∧
      ¬ ((holding 4 [.tick]).phase = .hold ∧ (holding 4 [.tick]).deadline ≤ (holding 4 [.tick]).now)) ∧
    ((holding 5 [.tick]).agenda = .tick :: [] ∧ (holding 5 [.tick]).phase = .hold ∧
      (holding 5 [.tick]).deadline ≤ (holding 5 [.tick]).now) := by decide

theorem witness_NowChangesOnlyByTick : ∃ t, step (holding 4 [.tick]) = .next t ∧ t.now = 5 :=
  ⟨_, rfl, rfl⟩

/-- Each source: reset, a fall, a fire, and a command's last byte (V-R2, V-F1, V-P8). -/
theorem witness_OutWriteMux :
    ((holding 2 [.rst]).Framed ∧
      ∃ t, step (holding 2 [.rst]) = .next t ∧ t.out ≠ (holding 2 [.rst]).out) ∧
    ((holding 5 [.ctrl]).Framed ∧
      ∃ t, step (holding 5 [.ctrl]) = .next t ∧ t.out ≠ (holding 5 [.ctrl]).out) ∧
    ((auto 50 0x04 [.ctrl]).Framed ∧
      ∃ t, step (auto 50 0x04 [.ctrl]) = .next t ∧ t.out ≠ (auto 50 0x04 [.ctrl]).out) ∧
    (let s := (cmdWith [0x07]).setPhase (.args (.start 0x0C 1))
     s.Framed ∧ ∃ t, step s = .next t ∧ t.out ≠ s.out) :=
  ⟨⟨fun p h => by (cases h), _, rfl, by decide⟩, ⟨fun p h => by (cases h), _, rfl, by decide⟩,
    ⟨fun p h => by (cases h), _, rfl, by decide⟩, ⟨framed_start _ _ 0 (by decide), _, rfl, by decide⟩⟩

/-- V-S2: the last byte of opcode 10; and a reset. -/
theorem witness_DurWriters :
    (let s := (cmdWith [0xFF]).setPhase (.args ((PartialCommand.start 0x0A 2).receive 0xFF))
     s.Framed ∧ ∃ t, step s = .next t ∧ t.dur ≠ s.dur) ∧
    (let s := (cmd [.rst]).setDur 1000
     s.Framed ∧ ∃ t, step s = .next t ∧ t.dur ≠ s.dur) :=
  ⟨⟨fun p h => by (cases h; decide), _, rfl, by decide⟩, ⟨fun p h => by (cases h), _, rfl, by decide⟩⟩

theorem witness_TransmitSources :
    (cmdWith [0x14]).Framed ∧ ∃ t, step (cmdWith [0x14]) = .next t ∧ t.txLog = [0x00] :=
  ⟨fun p h => by (cases h), _, rfl, by decide⟩

/-! ## Witnesses: outputs and inputs -/

/-- One tick before the deadline, and at it; neither log nor draw in CMD mode. -/
theorem witness_FallStepResult :
    ((holding 4 [.ctrl]).phase = .hold ∧ (holding 4 [.ctrl]).ctrlTurn = true ∧
      (holding 4 [.ctrl]).now < (holding 4 [.ctrl]).deadline) ∧
    ((holding 5 [.ctrl]).phase = .hold ∧ (holding 5 [.ctrl]).ctrlTurn = true ∧
      (holding 5 [.ctrl]).deadline ≤ (holding 5 [.ctrl]).now ∧
      ¬ ((holding 5 [.ctrl]).cfg.mode = .auto ∧ (holding 5 [.ctrl]).cfg.autoLog = true)) := by decide

/-- Both outcomes: still held after one move from 4, fallen after two more. -/
theorem witness_PulseRunsToCompletion :
    (holding 4 [.tick, .ctrl]).phase = .hold ∧
      (holding 4 [.tick, .ctrl]).now ≤ (holding 4 [.tick, .ctrl]).deadline ∧
      (holding 4 [.tick, .ctrl]).noReset ∧
      (∃ t, (holding 4 [.tick, .ctrl]).after 1 = some t ∧ t.phase = .hold) ∧
      ∃ t, (holding 4 [.tick, .ctrl]).after 2 = some t ∧ t.phase = .idle :=
  ⟨rfl, by decide, by simp [State.noReset, holding, cmd, State.powerUp], ⟨_, rfl, rfl⟩,
    ⟨_, rfl, rfl⟩⟩

theorem witness_HoldEndsAtDeadline :
    (holding 5 []).phase = .hold ∧ (holding 5 []).now ≤ (holding 5 []).deadline ∧
      (holding 5 []).agenda = [] := by decide

theorem witness_HoldBlocksEverythingElse :
    (holding 4 [.rx 0x14]).phase = .hold ∧
      (holding 4 [.rx 0x14]).now < (holding 4 [.rx 0x14]).deadline ∧
      (holding 4 [.rx 0x14]).agenda.head? ≠ some .rst ∧ ∃ t, step (holding 4 [.rx 0x14]) = .next t :=
  ⟨by decide, by decide, by decide, _, rfl⟩

theorem witness_OutputPinMapping : (cmd []).cfg.wf = true ∧ 7 < 8 := by decide

/-- The driven clause, and the open one under ACTIVE_LOW. -/
theorem witness_SampleIsPolarityCorrected :
    ((cmd []).pinDriven.getLsbD 7 = true) ∧
      (State.reset.pinDriven.getLsbD 7 = false ∧ State.reset.cfg.pol = .activeLow) := by decide

/-! ## Witnesses: the debounce and re-arm state machine -/

/-- The hypotheses common to the rows. -/
def samples (s : State) : Prop := s.cfg.mode = .auto ∧ s.phase = .idle ∧ s.ctrlTurn = true

/-- Each row: V-F1, V-F2, V-F3, V-F4, V-F5 (at the interval exactly), V-F6 (one tick before). -/
theorem witness_SampleStepTable :
    (samples (auto 50 0x04 [.ctrl]) ∧ (auto 50 0x04 [.ctrl]).arm = .armed ∧
      (auto 50 0x04 [.ctrl]).inputMask ≠ 0) ∧
    (samples (auto 50 0x00 [.ctrl]) ∧ (auto 50 0x00 [.ctrl]).arm = .armed ∧
      (auto 50 0x00 [.ctrl]).inputMask = 0) ∧
    (samples (waiting 65 0x01 true 60) ∧ (waiting 65 0x01 true 60).arm = .disarmed ∧
      (waiting 65 0x01 true 60).inputMask ≠ 0) ∧
    (samples (waiting 56 0x00 false 0) ∧ (waiting 56 0x00 false 0).arm = .disarmed ∧
      (waiting 56 0x00 false 0).inputMask = 0 ∧ (waiting 56 0x00 false 0).relValid = false) ∧
    (samples (waiting 66 0x00 true 56) ∧ (waiting 66 0x00 true 56).arm = .disarmed ∧
      (waiting 66 0x00 true 56).inputMask = 0 ∧ (waiting 66 0x00 true 56).relValid = true ∧
      ((waiting 66 0x00 true 56).now : Int) - (waiting 66 0x00 true 56).relStart ≥
        (waiting 66 0x00 true 56).cfg.relInterval) ∧
    (samples (waiting 65 0x00 true 56) ∧ (waiting 65 0x00 true 56).arm = .disarmed ∧
      (waiting 65 0x00 true 56).inputMask = 0 ∧ (waiting 65 0x00 true 56).relValid = true ∧
      ((waiting 65 0x00 true 56).now : Int) - (waiting 65 0x00 true 56).relStart <
        (waiting 65 0x00 true 56).cfg.relInterval) := by
  unfold samples
  decide

theorem witness_FireExactlyWhenArmedAndPressed :
    (auto 50 0x80 [.ctrl]).cfg.mode = .auto ∧ (∀ p, (auto 50 0x80 [.ctrl]).phase ≠ .args p) ∧
      ∃ t, step (auto 50 0x80 [.ctrl]) = .next t ∧ t.arm = .disarmed :=
  ⟨rfl, fun p h => by (cases h), _, rfl, by decide⟩

theorem witness_HeldPressFiresOnce :
    let s := waiting 65 0x01 true 60
    s.cfg.mode = .auto ∧ (∀ p, s.phase ≠ .args p) ∧ s.arm = .disarmed ∧ s.inputsSteady ∧
      s.inputMask ≠ 0 ∧ s.noReset ∧ (∀ l d, Move.pins l d ∉ s.agenda) ∧ ∃ t, s.after 2 = some t :=
  ⟨rfl, fun p h => by (cases h), rfl, .inl rfl, by decide,
    by simp [State.noReset, waiting, auto, State.setNow, State.powerUp],
    by simp [waiting, auto, State.setNow, State.powerUp], _, rfl⟩

/-- The fall, the start of the timer and the re-arm, all at 55 (V-F12's interval of 0). -/
theorem witness_NoRearmBeforeReleaseInterval :
    let s := falling [.ctrl, .ctrl, .ctrl]
    s.cfg.mode = .auto ∧ s.phase = .hold ∧ s.now ≤ s.deadline ∧ s.arm = .disarmed ∧
      s.relValid = false ∧ s.noReset ∧ ∃ t, s.after 3 = some t ∧ t.arm = .armed ∧ t.now = 55 :=
  ⟨rfl, rfl, by decide, rfl, rfl, by simp [State.noReset, falling, State.powerUp],
    _, rfl, by decide, by decide⟩

/-! ## Witnesses: reset and invariants -/

theorem witness_ResetResult : (holding 2 [.rst, .tick]).agenda = .rst :: [.tick] := rfl

/-- The invariant is met in the middle of a hold, with the deadline reached. -/
theorem witness_InvariantKept :
    (holding 5 [.tick]).Inv ∧ ∃ t, step (holding 5 [.tick]) = .next t :=
  ⟨⟨by decide, fun p h => by (cases h), fun _ => by decide, Nat.zero_le _,
    ⟨fun _ => rfl, fun h => by (cases h)⟩, rfl⟩, _, rfl⟩

theorem witness_InvariantAtPowerUp : Config.reference.wf = true := by decide

/-- Both modes. -/
theorem witness_UnusedStateKeepsReset :
    (holding 5 [.ctrl]).UnusedAtReset ∧ (waiting 65 0x01 true 60).UnusedAtReset ∧
      (∃ t, step (holding 5 [.ctrl]) = .next t) ∧ ∃ t, step (waiting 65 0x01 true 60) = .next t :=
  ⟨⟨rfl, rfl, rfl⟩, ⟨rfl, rfl, rfl, fun p h => by (cases h)⟩, ⟨_, rfl⟩, ⟨_, rfl⟩⟩

/-- Both of its cases: idle, and during the pulse. -/
theorem witness_AutoDrivesOnlyTriggerLine :
    (auto 50 0x04 [.ctrl]).OnlyTriggerLine ∧ (falling [.ctrl]).OnlyTriggerLine ∧
      (∃ t, step (auto 50 0x04 [.ctrl]) = .next t) ∧ ∃ t, step (falling [.ctrl]) = .next t :=
  ⟨fun _ => .inl ⟨rfl, rfl⟩, fun _ => .inr ⟨rfl, by decide, by decide⟩, ⟨_, rfl⟩, ⟨_, rfl⟩⟩

theorem witness_OutTraceOrdered :
    (auto 50 0x04 [.ctrl]).TraceOk ∧ ∃ t, step (auto 50 0x04 [.ctrl]) = .next t :=
  ⟨⟨⟨[], 0, rfl, by decide⟩, List.pairwise_singleton _ _⟩, _, rfl⟩

theorem witness_BuildConstantsNeverChange : ∃ t, (holding 4 [.tick, .rst]).after 2 = some t :=
  ⟨_, rfl⟩

/-- Two states that differ in the observation state. -/
theorem witness_ObservationStateNeverRead :
    (cmdWith [0x14]).withoutObservation = ((cmdWith [0x14]).setOvf.txPush 0x24).withoutObservation ∧
      cmdWith [0x14] ≠ (cmdWith [0x14]).setOvf.txPush 0x24 ∧
      ∃ t, (cmdWith [0x14]).after 2 = some t :=
  ⟨by decide, by decide, _, rfl⟩

/-! ## Witnesses: admitted runs -/

/-- V-P1 as an admitted run: `0B 81` arrives and is taken, a third byte waits behind the hold. Its
state 5 meets the hypotheses of the second and the third clause of `EveryAdmittedRunProgresses`. -/
theorem witness_EveryAdmittedRunProgresses_cmd :
    ∃ r : Run, r.admitted ∧ (r.state 5).phase = .hold ∧ (r.state 5).cfg.mode = .cmd ∧
      (r.state 5).rxq = [0x14] := by
  obtain ⟨r, hr, -, -, h⟩ := admitted_of_play Config.reference 0xFF 0xFF
    [.rx 0x0B, .rx 0x81, .rx 0x14, .ctrl, .ctrl] _ (by decide) rfl
  have h : r.state 5 = _ := h
  exact ⟨r, hr, by rw [h]; rfl, by rw [h]; rfl, by rw [h]; rfl⟩

/-- The fourth clause: an AUTO block, in which bytes arrive and are discarded (V-D9). -/
theorem witness_EveryAdmittedRunProgresses_auto :
    ∃ r : Run, r.admitted ∧ (r.state 1).cfg.mode = .auto := by
  obtain ⟨r, hr, -, -, h⟩ := admitted_of_play { Config.reference with mode := .auto } 0xFF 0xFF
    [.rx 0x0D] _ (by decide) rfl
  have h : r.state 1 = _ := h
  exact ⟨r, hr, by rw [h]; rfl⟩

/-- R78, R76: a tick is no possible move while a fall is due, nor a turn with no step enabled. -/
theorem test_play_refuses :
    (holding 5 []).play [.tick] = none ∧ (cmd []).play [.ctrl] = none := by decide

end Sys2Proof.Tests
end

section
/-! SUPPORT. The 16-bit argument of opcode 10 (20_memory.md): how the decoder reads it. -/

namespace Sys2Proof

/-- An opcode with two arguments takes the two bytes after it, in order, and leaves the others
(R53, R56). -/
theorem decode_cons_of_argLen_two {op : Byte} (h : argLen op = some 2) (a0 a1 : Byte)
    (rest : List Byte) : decode (op :: a0 :: a1 :: rest) = .ok (instrOf op a0 a1, rest) := by
  simp only [decode, h]

/-- `instrOf` assembles the 16-bit argument from the first byte as the low one (R32, R53). -/
@[simp] theorem instrOf_ten (lo hi : Byte) :
    instrOf 10 lo hi = .setPulseDuration (leHalf lo hi) := rfl

/-- What the decoder reads from opcode 10 and any bytes after its two arguments (R32, R53). -/
theorem decode_setPulseDuration (lo hi : Byte) (rest : List Byte) :
    decode (0x0A :: lo :: hi :: rest) = .ok (.setPulseDuration (leHalf lo hi), rest) := by
  rw [decode_cons_of_argLen_two argLen_ten, instrOf_ten]

/-- Settles O6: opcode 10 reads its first argument byte as the low one, the value of the assembled
half-word is `leHalf_toNat`, and `argLen_two_iff` says that no other opcode takes two bytes. -/
theorem durationIsLittleEndian : Obligations.DurationIsLittleEndian := by
  unfold Obligations.DurationIsLittleEndian
  exact ⟨fun b1 b2 => ⟨decode_setPulseDuration b1 b2 [], leHalf_toNat b1 b2⟩, argLen_two_iff⟩

end Sys2Proof
end

section
/-! SUPPORT. The pulse opcodes 11 and 12 (R59, R84, R85): their effects, and their two encodings. -/

namespace Sys2Proof.Machine

/-- `pulse_mask` starts a pulse of its mask, with the duration register's value (R84). -/
theorem exec_pulseMask (m : Byte) (s : State) :
    exec (.pulseMask m) s = .next (s.pulseStart m s.dur) := rfl

/-- `pulse_line` starts a pulse of its line's mask where its index names a line (R85). -/
theorem exec_pulseLine_named {i : Byte} (h : i.toNat < 8) (s : State) :
    exec (.pulseLine i) s = .next (s.pulseStart (lineMask i) s.dur) :=
  congrArg _ (if_pos ((namesLine_iff i).mpr h))

/-- Opcode 12 is no alias of opcode 11: no two of their commands share an encoding (R59). -/
theorem encode_pulseLine_ne_encode_pulseMask (i m : Byte) :
    encode (.pulseLine i) ≠ encode (.pulseMask m) := by
  intro h
  have opcodes : (0x0C : Byte) = 0x0B := (List.cons.inj h).1
  exact absurd opcodes (by decide)

/-- Settles O10: a named line's pulse is the pulse of its mask, and the opcode bytes differ. -/
theorem pulseLineActsAsPulseMask : Obligations.PulseLineActsAsPulseMask := by
  unfold Obligations.PulseLineActsAsPulseMask
  intro i s hi
  have effect : exec (.pulseLine i) s = exec (.pulseMask (lineMask i)) s := by
    rw [exec_pulseLine_named hi, exec_pulseMask]
  exact ⟨effect, encode_pulseLine_ne_encode_pulseMask i _⟩

end Sys2Proof.Machine
end

section
/-! SUPPORT. The input lines (R63, R64): the sampled mask bit by bit, in each polarity. -/

namespace Sys2Proof.Machine

namespace State

/-- With ACTIVE_HIGH a line is pressed where its pin is high (R63). -/
theorem inputMask_getLsbD_activeHigh (s : State) (i : Nat) (hp : s.cfg.pol = .activeHigh) :
    s.inputMask.getLsbD i = s.inPin.getLsbD i := by
  simp [inputMask_eq, hp]

/-- With ACTIVE_LOW a line is pressed where its pin is low (R63). -/
theorem inputMask_getLsbD_activeLow (s : State) (i : Nat) (hi : i < 8)
    (hp : s.cfg.pol = .activeLow) : s.inputMask.getLsbD i = !s.inPin.getLsbD i := by
  simp [inputMask_eq, hp, hi]

/-- A line that the pull-up alone drives reads as not pressed (R63, R64). -/
theorem inputMask_getLsbD_pulled (s : State) (i : Nat) (hi : i < 8)
    (h : s.pinDriven.getLsbD i = false) (hp : s.cfg.pol = .activeLow) :
    s.inputMask.getLsbD i = false := by
  rw [inputMask_getLsbD_activeLow s i hi hp, inPin_pulled s i hi h hp, Bool.not_true]

end State

/-- Settles O46: the mask's bit is the pin's level, inverted with ACTIVE_LOW; a driven pin shows the
level driven and an open one the pull-up's. The state a sample leaves is `State.drawn`. -/
theorem sampleIsPolarityCorrected : Obligations.SampleIsPolarityCorrected := by
  unfold Obligations.SampleIsPolarityCorrected
  refine fun s => ⟨fun i hi driven => ?_, s.inputMask_getLsbD_pulled, rfl⟩
  rw [← s.inPin_driven i driven]
  cases hp : s.cfg.pol with
  | activeHigh => exact s.inputMask_getLsbD_activeHigh i hp
  | activeLow => exact s.inputMask_getLsbD_activeLow i hi hp

end Sys2Proof.Machine
end

section
/-! SUPPORT. The duration register and opcode 10 (R83). -/

namespace Sys2Proof.Machine

/-- `set_pulse_duration` writes its operand to the duration register, for every operand (R83). -/
theorem exec_setPulseDuration (d : Half) (s : State) :
    exec (.setPulseDuration d) s = .next (s.setDur d) := rfl

/-- Settles O7: the bytes are read by `decode_setPulseDuration`, and the state the command leaves is
`State.setDur`, which updates `dur` and no other field. -/
theorem setPulseDurationResult : Obligations.SetPulseDurationResult := by
  unfold Obligations.SetPulseDurationResult
  exact fun lo hi d s => ⟨decode_setPulseDuration lo hi [], exec_setPulseDuration d s⟩

end Sys2Proof.Machine
end

section
/-! SUPPORT. The level opcodes 13 to 16 (R88 to R91): how their bytes are read, the one write each
makes, and that write bit by bit. -/

namespace Sys2Proof

/-- An opcode with one argument takes the byte after it and leaves the others (R51, R56). -/
theorem decode_cons_of_argLen_one {op : Byte} (h : argLen op = some 1) (a0 : Byte)
    (rest : List Byte) : decode (op :: a0 :: rest) = .ok (instrOf op a0 0, rest) := by
  simp only [decode, h]

theorem decode_setMaskHigh (m : Byte) (rest : List Byte) :
    decode (0x0D :: m :: rest) = .ok (.setMaskHigh m, rest) :=
  decode_cons_of_argLen_one (by decide) m rest

theorem decode_setMaskLow (m : Byte) (rest : List Byte) :
    decode (0x0E :: m :: rest) = .ok (.setMaskLow m, rest) :=
  decode_cons_of_argLen_one (by decide) m rest

theorem decode_setLineHigh (i : Byte) (rest : List Byte) :
    decode (0x0F :: i :: rest) = .ok (.setLineHigh i, rest) :=
  decode_cons_of_argLen_one (by decide) i rest

theorem decode_setLineLow (i : Byte) (rest : List Byte) :
    decode (0x10 :: i :: rest) = .ok (.setLineLow i, rest) :=
  decode_cons_of_argLen_one (by decide) i rest

namespace Machine

/-! ## Masks bit by bit -/

/-- The mask of a named line has that line's bit and no other (R8, R53). -/
theorem lineMask_getLsbD {i : Byte} {j : Nat} (hi : i.toNat < 8) (hj : j < 8) :
    (lineMask i).getLsbD j = decide (j = i.toNat) :=
  lineBit_getLsbD i.toNat j hi hj

/-- Clearing the lines of a mask keeps the others (R89, R91). -/
theorem getLsbD_and_not (v m : Byte) {i : Nat} (hi : i < 8) :
    (v &&& ~~~ m).getLsbD i = (v.getLsbD i && !m.getLsbD i) := by
  rw [BitVec.getLsbD_and, BitVec.getLsbD_not, decide_eq_true hi, Bool.true_and]

/-! ## The commands' effects -/

/-- An output write changes the latch and records one entry, of the value written; every other field
stays (R62). -/
theorem State.outWrite_frame (s : State) (v : Byte) :
    s.outWrite v = { s with
      out := (s.outWrite v).out,
      outTrace := s.outTrace ++ [(s.now, (s.outWrite v).out)] } := rfl

/-- `set_mask_high` is one write, for every mask (R88). -/
theorem exec_setMaskHigh (m : Byte) (s : State) :
    exec (.setMaskHigh m) s = .next (s.outWrite (s.out ||| m)) := rfl

/-- `set_mask_low` is one write, for every mask (R89). -/
theorem exec_setMaskLow (m : Byte) (s : State) :
    exec (.setMaskLow m) s = .next (s.outWrite (s.out &&& ~~~ m)) := rfl

/-- `set_line_high` is `writeLine` with level 1 (R62, R90). -/
theorem exec_setLineHigh (i : Byte) (s : State) :
    exec (.setLineHigh i) s = .next (s.writeLine i true) := rfl

/-- `set_line_low` is `writeLine` with level 0 (R62, R91). -/
theorem exec_setLineLow (i : Byte) (s : State) :
    exec (.setLineLow i) s = .next (s.writeLine i false) := rfl

/-- Where its index names a line, `set_line_high` raises that line's mask (R90). -/
theorem exec_setLineHigh_named {i : Byte} (h : i.toNat < 8) (s : State) :
    exec (.setLineHigh i) s = .next (s.outWrite (s.out ||| lineMask i)) := by
  rw [exec_setLineHigh, s.writeLine_named i true h, if_pos rfl]

/-- Where its index names a line, `set_line_low` lowers that line's mask (R91). -/
theorem exec_setLineLow_named {i : Byte} (h : i.toNat < 8) (s : State) :
    exec (.setLineLow i) s = .next (s.outWrite (s.out &&& ~~~ lineMask i)) := by
  rw [exec_setLineLow, s.writeLine_named i false h, if_neg Bool.false_ne_true]

/-- An index that names no line leaves the whole state as it is (R90). -/
theorem exec_setLineHigh_unnamed {i : Byte} (h : 8 ≤ i.toNat) (s : State) :
    exec (.setLineHigh i) s = .next s := by
  rw [exec_setLineHigh, s.writeLine_unnamed i true h]

/-- An index that names no line leaves the whole state as it is (R91). -/
theorem exec_setLineLow_unnamed {i : Byte} (h : 8 ≤ i.toNat) (s : State) :
    exec (.setLineLow i) s = .next s := by
  rw [exec_setLineLow, s.writeLine_unnamed i false h]

/-! ## The obligations -/

/-- Settles O11: the value written is `OUT | m`, read bit by bit. -/
theorem setMaskHighResult : Obligations.SetMaskHighResult := by
  unfold Obligations.SetMaskHighResult
  refine fun m s => ⟨decode_setMaskHigh m [],
    _, exec_setMaskHigh m s, fun i _ => ?_, s.outWrite_frame _⟩
  rw [State.outWrite_out, BitVec.getLsbD_or]

/-- Settles O12: the value written is `OUT & ~m`, read bit by bit. -/
theorem setMaskLowResult : Obligations.SetMaskLowResult := by
  unfold Obligations.SetMaskLowResult
  refine fun m s => ⟨decode_setMaskLow m [],
    _, exec_setMaskLow m s, fun i hi => ?_, s.outWrite_frame _⟩
  rw [State.outWrite_out, getLsbD_and_not s.out m hi]

/-- Settles O13: a named line is raised through its mask, and an index of 8 or more makes no write. -/
theorem setLineHighResult : Obligations.SetLineHighResult := by
  unfold Obligations.SetLineHighResult
  refine fun i s => ⟨decode_setLineHigh i [], fun named => ?_,
    fun unnamed => exec_setLineHigh_unnamed unnamed s⟩
  refine ⟨_, exec_setLineHigh_named named s, fun j hj => ?_, s.outWrite_frame _⟩
  rw [State.outWrite_out, BitVec.getLsbD_or, lineMask_getLsbD named hj]

/-- Settles O14: a named line is lowered through its mask, and an index of 8 or more makes no write. -/
theorem setLineLowResult : Obligations.SetLineLowResult := by
  unfold Obligations.SetLineLowResult
  refine fun i s => ⟨decode_setLineLow i [], fun named => ?_,
    fun unnamed => exec_setLineLow_unnamed unnamed s⟩
  refine ⟨_, exec_setLineLow_named named s, fun j hj => ?_, s.outWrite_frame _⟩
  rw [State.outWrite_out, getLsbD_and_not s.out _ hj, lineMask_getLsbD named hj]

end Machine

end Sys2Proof
end

section
/-! SUPPORT. Opcode 20 and the unknown opcodes (R92 to R94): how an unknown opcode is read and
dispatched, and which commands send a byte. -/

namespace Sys2Proof

/-- The unknown opcode values, as ranges (R55). -/
theorem unknownOpcode_iff (o : Byte) :
    unknownOpcode o = true ↔
      o.toNat ≤ 9 ∨ (17 ≤ o.toNat ∧ o.toNat ≤ 19) ∨ 21 ≤ o.toNat := by
  simp only [unknownOpcode, Bool.or_eq_true, Bool.and_eq_true, decide_eq_true_eq, or_assoc]

/-- An unknown opcode takes no argument: the bytes after it are left (R55, R56). -/
theorem decode_cons_of_argLen_none {op : Byte} (h : argLen op = none) (rest : List Byte) :
    decode (op :: rest) = .ok (.unknown op, rest) := by
  simp only [decode, h]

namespace Machine

/-! ## The unknown opcodes -/

/-- An unknown opcode has no effect of its own (R94). -/
theorem exec_unknown (o : Byte) (s : State) : exec (.unknown o) s = .next s := rfl

/-- An idle CMD controller takes the oldest byte of `RXQ` as an opcode (R69, R70). -/
theorem controllerStep_idle_cmd {s : State} {b : Byte} {q : List Byte} (hmode : s.cfg.mode = .cmd)
    (hp : s.phase = .idle) (hq : s.rxq = b :: q) :
    controllerStep s = opcodeByte b (s.setRxq q) := by
  have enabled : s.dispatchEnabled = true := by
    rw [State.dispatchEnabled_iff, hp, hq]
    exact ⟨hmode, Phase.noConfusion, List.cons_ne_nil b q⟩
  have popped : s.rxPop = some (b, s.setRxq q) := by simp only [State.rxPop, hq]
  rw [controllerStep, if_pos enabled]
  simp only [dispatchStep, popped, hp]

/-- An opcode byte that `ArgLen` does not know executes as an unknown opcode (R70). -/
theorem opcodeByte_of_argLen_none {b : Byte} (h : argLen b = none) (s : State) :
    opcodeByte b s = exec (.unknown b) s := by
  simp only [opcodeByte, h]

/-- The turn that takes an unknown opcode removes it from `RXQ` and does nothing else (R94). -/
theorem step_unknown {s : State} {u : Byte} {rest : List Byte} (hu : argLen u = none)
    (hmode : s.cfg.mode = .cmd) (hp : s.phase = .idle) (hq : s.rxq = u :: rest)
    (hc : s.ctrlTurn = true) : step s = .next (s.turnTaken.setRxq rest) :=
  calc step s
    _ = controllerStep s.turnTaken := step_turn s hc
    _ = opcodeByte u (s.turnTaken.setRxq rest) := controllerStep_idle_cmd hmode hp hq
    _ = exec (.unknown u) (s.turnTaken.setRxq rest) := opcodeByte_of_argLen_none hu _
    _ = .next (s.turnTaken.setRxq rest) := exec_unknown u _

/-- Settles O16: `ArgLen` knows none of these opcodes, so each is decoded alone, and the turn that
takes it is `step_unknown`. -/
theorem unknownOpcodeDiscarded : Obligations.UnknownOpcodeDiscarded := by
  unfold Obligations.UnknownOpcodeDiscarded
  intro u s rest range
  have hu : argLen u = none := (argLen_none_iff u).mpr ((unknownOpcode_iff u).mpr range)
  exact ⟨decode_cons_of_argLen_none hu rest, exec_unknown u s, step_unknown hu⟩

/-! ## The commands' answers -/

/-- `get_button_mask` appends the sampled mask to `TXLOG` (R92). -/
theorem exec_getButtonMask (s : State) :
    exec .getButtonMask s = .next (s.drawn.txAppend [s.inputMask]) := rfl

/-- The start of a pulse sends nothing (R81). -/
@[simp] theorem State.pulseStart_txLog (s : State) (m : Byte) (d : Half) :
    (s.pulseStart m d).txLog = s.txLog := rfl

/-- No command but opcode 20 sends a byte (R93). -/
theorem ExecCase.txLog_eq {i : Instr} {s t : State} (h : ExecCase i s t)
    (hi : i ≠ .getButtonMask) : t.txLog = s.txLog := by
  cases h with
  | duration d _ ht => rw [ht, State.setDur_txLog]
  | pulse m _ ht => rw [ht, State.pulseStart_txLog]
  | raise m _ ht => rw [ht, State.outWrite_txLog]
  | lower m _ ht => rw [ht, State.outWrite_txLog]
  | answer h20 _ => exact absurd h20 hi
  | nothing _ ht => rw [ht]

/-- Settles O17: opcode 20 appends the one byte of its answer, and every other way a command can end
keeps `TXLOG`. -/
theorem onlyOpcode20Answers : Obligations.OnlyOpcode20Answers := by
  unfold Obligations.OnlyOpcode20Answers
  intro i s
  by_cases h20 : i = .getButtonMask
  · subst h20
    exact ⟨_, exec_getButtonMask s, fun other => absurd rfl other,
      fun _ => ⟨s.inputMask, State.txAppend_txLog _ _⟩⟩
  · obtain ⟨t, ht, hx⟩ := exec_cases i s
    exact ⟨t, ht, hx.txLog_eq, fun is20 => absurd is20 h20⟩

end Machine

end Sys2Proof
end

section
/-! SUPPORT. Operands out of range (R110): an index that names no line, and the one write of a mask
opcode, for every mask. -/

namespace Sys2Proof.Machine

/-- An index that names no line starts no pulse, and leaves the whole state as it is (R85). -/
theorem exec_pulseLine_unnamed {i : Byte} (h : 8 ≤ i.toNat) (s : State) :
    exec (.pulseLine i) s = .next s :=
  congrArg _ (if_neg (mt (namesLine_iff i).mp (Nat.not_lt.mpr h)))

/-- The start of a pulse records its rise, and no other write (R81). -/
@[simp] theorem State.pulseStart_outTrace (s : State) (m : Byte) (d : Half) :
    (s.pulseStart m d).outTrace = s.outTrace ++ [(s.now, s.out ||| m)] := by
  rw [State.pulseStart_eq]

/-- Settles O18: an index of 8 or more names no line, and the mask opcodes test no operand, so each
makes its one write. -/
theorem outOfRangeIndexIgnored : Obligations.OutOfRangeIndexIgnored := by
  unfold Obligations.OutOfRangeIndexIgnored
  constructor
  · intro i s unnamed
    exact ⟨exec_pulseLine_unnamed unnamed s, exec_setLineHigh_unnamed unnamed s,
      exec_setLineLow_unnamed unnamed s⟩
  · intro m s
    exact ⟨_, _, _, exec_pulseMask m s, s.pulseStart_outTrace m s.dur,
      exec_setMaskHigh m s, s.outWrite_outTrace _, exec_setMaskLow m s, s.outWrite_outTrace _⟩

end Sys2Proof.Machine
end

section
/-! SUPPORT. The decoder and the encoder (30_encoding.md): what is read from the bytes after an
opcode, that encoding and decoding agree both ways, and that no command's bytes begin another's. -/

namespace Sys2Proof

/-! ## One opcode and the bytes after it -/

/-- Opcode 20 takes no argument: the bytes after it are left (R50, R56). -/
theorem decode_cons_of_argLen_zero {op : Byte} (h : argLen op = some 0) (rest : List Byte) :
    decode (op :: rest) = .ok (.getButtonMask, rest) := by
  simp only [decode, h, instrOf_zero op 0 0 h]

/-- An opcode with fewer bytes after it than it takes is rejected, with both counts (R56, R108). -/
theorem decode_cons_of_missing {op : Byte} {n : Nat} {rest : List Byte} (h : argLen op = some n)
    (short : rest.length < n) :
    decode (op :: rest) = .error (.missingArguments op n rest.length) := by
  have atMostTwo : n ≤ 2 := argLen_le_two op n h
  match n, rest, h, short with
  | 1, [], h, _ => simp only [decode, h, List.length_nil]
  | 2, [], h, _ => simp only [decode, h, List.length_nil]
  | 2, [a], h, _ => simp only [decode, h, List.length_cons, List.length_nil]

/-- An opcode with one argument and that argument are the bytes of the command they select (R51). -/
theorem encode_instrOf_one {op : Byte} (h : argLen op = some 1) (a0 a1 : Byte) :
    (instrOf op a0 a1).wellFormed = true ∧ encode (instrOf op a0 a1) = [op, a0] := by
  have defined : op ∈ ([11, 12, 13, 14, 15, 16] : List Byte) := by
    rcases argLen_cases op with ⟨-, e⟩ | ⟨m, -⟩ | ⟨-, e⟩ | ⟨e, -⟩
    · simp [h] at e
    · exact m
    · simp [h] at e
    · simp [h] at e
  simp only [List.mem_cons, List.not_mem_nil, or_false] at defined
  rcases defined with rfl | rfl | rfl | rfl | rfl | rfl <;> exact ⟨rfl, rfl⟩

/-- An unknown opcode selects no other command (R73). -/
theorem instrOf_none {op : Byte} (h : argLen op = none) (a0 a1 : Byte) :
    instrOf op a0 a1 = .unknown op := by
  have undefined : op ∉ ([10, 11, 12, 13, 14, 15, 16, 20] : List Byte) := by
    rcases argLen_cases op with ⟨-, e⟩ | ⟨-, e⟩ | ⟨-, e⟩ | ⟨-, m⟩
    · simp [h] at e
    · simp [h] at e
    · simp [h] at e
    · exact m
  simp only [List.mem_cons, List.not_mem_nil, or_false, not_or] at undefined
  simp only [instrOf, undefined, if_false]

/-- The bytes of the command that an opcode selects begin with that opcode (R50 to R53). -/
theorem encode_instrOf_cons (op a0 a1 : Byte) : ∃ args, encode (instrOf op a0 a1) = op :: args := by
  rcases argLen_cases op with ⟨rfl, -⟩ | ⟨-, h⟩ | ⟨rfl, h⟩ | ⟨h, -⟩
  · exact ⟨_, rfl⟩
  · exact ⟨_, (encode_instrOf_one h a0 a1).2⟩
  · exact ⟨_, rfl⟩
  · exact ⟨_, by rw [instrOf_none h]; rfl⟩

/-- The bytes of a half-word are the two it was assembled from, the low one first (R32). -/
@[simp] theorem loByte_leHalf (lo hi : Byte) : loByte (leHalf lo hi) = lo := by
  simp only [loByte, leHalf, BitVec.extractLsb'_append_eq_right]

@[simp] theorem hiByte_leHalf (lo hi : Byte) : hiByte (leHalf lo hi) = hi := by
  simp only [hiByte, leHalf, BitVec.extractLsb'_append_eq_left]

/-- The decoder on any opcode byte: either bytes are missing, or it reads a well-formed command
whose bytes are the ones consumed (R49, R55, R56). -/
theorem decode_cons_cases (op : Byte) (rest : List Byte) :
    (∃ n, argLen op = some n ∧ rest.length < n) ∨
    ∃ i rest', decode (op :: rest) = .ok (i, rest') ∧ i.wellFormed = true ∧
      encode i ++ rest' = op :: rest := by
  rcases argLen_cases op with ⟨rfl, h⟩ | ⟨-, h⟩ | ⟨rfl, h⟩ | ⟨h, -⟩
  · match rest with
    | [] => exact .inl ⟨2, h, by decide⟩
    | [a] => exact .inl ⟨2, h, by simp⟩
    | lo :: hi :: rest' =>
      refine .inr ⟨_, rest', decode_setPulseDuration lo hi rest', rfl, ?_⟩
      simp only [encode, loByte_leHalf, hiByte_leHalf]
      rfl
  · match rest with
    | [] => exact .inl ⟨1, h, by decide⟩
    | a :: rest' =>
      obtain ⟨wf, bytes⟩ := encode_instrOf_one h a 0
      exact .inr ⟨_, rest', decode_cons_of_argLen_one h a rest', wf, by rw [bytes]; rfl⟩
  · exact .inr ⟨_, rest, decode_cons_of_argLen_zero h rest, rfl, rfl⟩
  · exact .inr ⟨_, rest, decode_cons_of_argLen_none h rest, (argLen_none_iff op).mp h, rfl⟩

/-! ## Encoding and decoding agree -/

theorem decode_pulseMask (m : Byte) (rest : List Byte) :
    decode (0x0B :: m :: rest) = .ok (.pulseMask m, rest) :=
  decode_cons_of_argLen_one (by decide) m rest

theorem decode_pulseLine (i : Byte) (rest : List Byte) :
    decode (0x0C :: i :: rest) = .ok (.pulseLine i, rest) :=
  decode_cons_of_argLen_one (by decide) i rest

theorem decode_getButtonMask (rest : List Byte) :
    decode (0x14 :: rest) = .ok (.getButtonMask, rest) :=
  decode_cons_of_argLen_zero argLen_twenty rest

/-- Settles O1, one row of the opcode table a case; an unknown opcode is one that `ArgLen` does not
know. -/
theorem decodeOfEncodedCommand : Obligations.DecodeOfEncodedCommand := by
  unfold Obligations.DecodeOfEncodedCommand
  intro i rest wf
  cases i with
  | setPulseDuration d =>
    have read := decode_setPulseDuration (loByte d) (hiByte d) rest
    rwa [leHalf_bytes] at read
  | pulseMask m => exact decode_pulseMask m rest
  | pulseLine i => exact decode_pulseLine i rest
  | setMaskHigh m => exact decode_setMaskHigh m rest
  | setMaskLow m => exact decode_setMaskLow m rest
  | setLineHigh i => exact decode_setLineHigh i rest
  | setLineLow i => exact decode_setLineLow i rest
  | getButtonMask => exact decode_getButtonMask rest
  | unknown o => exact decode_cons_of_argLen_none ((argLen_none_iff o).mpr wf) rest

/-- Settles O2: `decode_cons_cases`, where a rejected sequence is none that was decoded. -/
theorem encodeOfDecodedCommand : Obligations.EncodeOfDecodedCommand := by
  unfold Obligations.EncodeOfDecodedCommand
  intro bytes i rest read
  match bytes with
  | [] => cases read
  | op :: more =>
    rcases decode_cons_cases op more with ⟨n, h, short⟩ | ⟨j, rest', read', wf, same⟩
    · rw [decode_cons_of_missing h short] at read
      cases read
    · rw [read'] at read
      cases read
      exact ⟨wf, same⟩

/-- Settles O3: no byte at all is one rejection, and `decode_cons_cases` leaves missing arguments as
the only other. -/
theorem decodeRejectsOnlyMissingBytes : Obligations.DecodeRejectsOnlyMissingBytes := by
  unfold Obligations.DecodeRejectsOnlyMissingBytes
  intro bytes e
  constructor
  · intro rejected
    match bytes with
    | [] => cases rejected; exact .inl ⟨rfl, rfl⟩
    | op :: rest =>
      rcases decode_cons_cases op rest with ⟨n, h, short⟩ | ⟨j, rest', read, -, -⟩
      · rw [decode_cons_of_missing h short] at rejected
        cases rejected
        exact .inr ⟨op, rest, n, rfl, h, short, rfl⟩
      · rw [read] at rejected
        cases rejected
  · rintro (⟨rfl, rfl⟩ | ⟨op, rest, n, rfl, h, short, rfl⟩)
    · rfl
    · exact decode_cons_of_missing h short

/-- No command's bytes begin with another command's bytes and go on (R49, R55): what is left after a
command was read from a well-formed command's bytes is nothing, and the command is that one. -/
theorem decode_prefix_of_encode {i j : Instr} {first more rest : List Byte}
    (wf : i.wellFormed = true) (split : first ++ more = encode i)
    (read : decode first = .ok (j, rest)) :
    j = i ∧ rest = [] ∧ more = [] := by
  obtain ⟨wfj, bytes⟩ := encodeOfDecodedCommand first j rest read
  have whole : decode (encode i ++ []) = .ok (i, []) := decodeOfEncodedCommand i [] wf
  have part : decode (encode j ++ (rest ++ more)) = .ok (j, rest ++ more) :=
    decodeOfEncodedCommand j _ wfj
  rw [← List.append_assoc, bytes, split, ← List.append_nil (encode i), whole] at part
  obtain ⟨same, nothing⟩ := Prod.mk.inj (Except.ok.inj part)
  obtain ⟨rest_nil, more_nil⟩ := List.append_eq_nil_iff.mp nothing.symm
  exact ⟨same.symm, rest_nil, more_nil⟩

/-! ## The opcode table -/

/-- Settles O4: each clause is a case of `argLen_cases`, read by the byte's value. -/
theorem argLenOfEveryByte : Obligations.ArgLenOfEveryByte := by
  unfold Obligations.ArgLenOfEveryByte
  intro b
  refine ⟨fun ten => ?_, fun one => ?_, fun twenty => ?_, fun other => ?_⟩
  · exact (argLen_two_iff b).mpr (BitVec.eq_of_toNat_eq ten)
  · rcases argLen_cases b with ⟨rfl, -⟩ | ⟨-, e⟩ | ⟨rfl, -⟩ | ⟨e, -⟩
    · exact absurd one (by decide)
    · exact e
    · exact absurd one (by decide)
    · rw [argLen_none_iff, unknownOpcode_iff] at e
      omega
  · exact (argLen_zero_iff b).mpr (BitVec.eq_of_toNat_eq twenty)
  · exact (argLen_none_iff b).mpr ((unknownOpcode_iff b).mpr other)

/-- Settles O5: the rows by `decodeOfEncodedCommand`'s lemmas, for all arguments; the last line's
words are four closed instances of the table's layout. -/
theorem opcodeTableWordsDecode : Obligations.OpcodeTableWordsDecode := by
  unfold Obligations.OpcodeTableWordsDecode
  refine ⟨decode_setPulseDuration, fun a rest => ?_, decode_getButtonMask, ?_, ?_, ?_, ?_⟩
  · exact ⟨decode_pulseMask a rest, decode_pulseLine a rest, decode_setMaskHigh a rest,
      decode_setMaskLow a rest, decode_setLineHigh a rest, decode_setLineLow a rest⟩
  all_goals decide

end Sys2Proof
end

section
/-! SUPPORT. The shared operations field by field, in the manner of Laws/State: what each leaves as
it was, and the values that later proofs read. -/

namespace Sys2Proof.Machine.State

@[simp] theorem pulseStart_out (s : State) (m : Byte) (d : Half) :
    (s.pulseStart m d).out = s.out ||| m := rfl
@[simp] theorem pulseStart_dur (s : State) (m : Byte) (d : Half) :
    (s.pulseStart m d).dur = s.dur := rfl
@[simp] theorem pulseStart_phase (s : State) (m : Byte) (d : Half) :
    (s.pulseStart m d).phase = .hold := rfl
@[simp] theorem pulseStart_hmask (s : State) (m : Byte) (d : Half) :
    (s.pulseStart m d).hmask = m := rfl
@[simp] theorem pulseStart_deadline (s : State) (m : Byte) (d : Half) :
    (s.pulseStart m d).deadline = s.now + s.holdTicks d := rfl

@[simp] theorem resetBlock_cfg (s : State) : s.resetBlock.cfg = s.cfg := rfl
@[simp] theorem resetBlock_out (s : State) : s.resetBlock.out = 0x00 := rfl
@[simp] theorem resetBlock_dur (s : State) : s.resetBlock.dur = Config.durReset := rfl
@[simp] theorem resetBlock_phase (s : State) : s.resetBlock.phase = .idle := rfl
@[simp] theorem resetBlock_rxq (s : State) : s.resetBlock.rxq = [] := rfl
@[simp] theorem resetBlock_now (s : State) : s.resetBlock.now = s.now := rfl
@[simp] theorem resetBlock_outTrace (s : State) :
    s.resetBlock.outTrace = s.outTrace ++ [(s.now, 0x00)] := rfl
@[simp] theorem resetBlock_txLog (s : State) : s.resetBlock.txLog = s.txLog := rfl
@[simp] theorem resetBlock_agenda (s : State) : s.resetBlock.agenda = s.agenda := rfl

/-- A fall writes the outputs, the trace, the phase and, with a log line, `TXLOG` and the count of
draws (R82, R104). -/
theorem fallStep_frame (s : State) : s.fallStep = { s with
    out := s.out &&& ~~~ s.hmask, outTrace := s.outTrace ++ [(s.now, s.out &&& ~~~ s.hmask)],
    phase := .idle, txLog := s.fallStep.txLog, draws := s.fallStep.draws } := by
  obtain ⟨line, n, h, -⟩ := s.fallStep_cases
  rw [h]

@[simp] theorem fallStep_cfg (s : State) : s.fallStep.cfg = s.cfg := by rw [fallStep_frame]
@[simp] theorem fallStep_out (s : State) : s.fallStep.out = s.out &&& ~~~ s.hmask := by
  rw [fallStep_frame]
@[simp] theorem fallStep_dur (s : State) : s.fallStep.dur = s.dur := by rw [fallStep_frame]
@[simp] theorem fallStep_phase (s : State) : s.fallStep.phase = .idle := by rw [fallStep_frame]
@[simp] theorem fallStep_rxq (s : State) : s.fallStep.rxq = s.rxq := by rw [fallStep_frame]
@[simp] theorem fallStep_arm (s : State) : s.fallStep.arm = s.arm := by rw [fallStep_frame]
@[simp] theorem fallStep_relValid (s : State) : s.fallStep.relValid = s.relValid := by
  rw [fallStep_frame]
@[simp] theorem fallStep_relStart (s : State) : s.fallStep.relStart = s.relStart := by
  rw [fallStep_frame]
@[simp] theorem fallStep_now (s : State) : s.fallStep.now = s.now := by rw [fallStep_frame]
@[simp] theorem fallStep_pullupEn (s : State) : s.fallStep.pullupEn = s.pullupEn := by
  rw [fallStep_frame]
@[simp] theorem fallStep_outTrace (s : State) :
    s.fallStep.outTrace = s.outTrace ++ [(s.now, s.out &&& ~~~ s.hmask)] := by
  rw [fallStep_frame]
@[simp] theorem fallStep_rxOvf (s : State) : s.fallStep.rxOvf = s.rxOvf := by rw [fallStep_frame]
@[simp] theorem fallStep_pinLevel (s : State) : s.fallStep.pinLevel = s.pinLevel := by
  rw [fallStep_frame]
@[simp] theorem fallStep_pinDriven (s : State) : s.fallStep.pinDriven = s.pinDriven := by
  rw [fallStep_frame]
@[simp] theorem fallStep_agenda (s : State) : s.fallStep.agenda = s.agenda := by rw [fallStep_frame]

/-- A byte that arrives touches the queue and its overflow flag alone (R68, R75). -/
theorem receive_frame (s : State) (b : Byte) :
    s.receive b = { s with rxq := (s.receive b).rxq, rxOvf := (s.receive b).rxOvf } := by
  rcases s.receive_cases b with ⟨-, h⟩ | ⟨-, -, h⟩ | ⟨-, -, h⟩ <;> rw [h] <;> rfl

@[simp] theorem receive_cfg (s : State) (b : Byte) : (s.receive b).cfg = s.cfg := by
  rw [receive_frame]
@[simp] theorem receive_out (s : State) (b : Byte) : (s.receive b).out = s.out := by
  rw [receive_frame]
@[simp] theorem receive_dur (s : State) (b : Byte) : (s.receive b).dur = s.dur := by
  rw [receive_frame]
@[simp] theorem receive_phase (s : State) (b : Byte) : (s.receive b).phase = s.phase := by
  rw [receive_frame]
@[simp] theorem receive_arm (s : State) (b : Byte) : (s.receive b).arm = s.arm := by
  rw [receive_frame]
@[simp] theorem receive_relValid (s : State) (b : Byte) : (s.receive b).relValid = s.relValid := by
  rw [receive_frame]
@[simp] theorem receive_relStart (s : State) (b : Byte) : (s.receive b).relStart = s.relStart := by
  rw [receive_frame]
@[simp] theorem receive_now (s : State) (b : Byte) : (s.receive b).now = s.now := by
  rw [receive_frame]
@[simp] theorem receive_pullupEn (s : State) (b : Byte) : (s.receive b).pullupEn = s.pullupEn := by
  rw [receive_frame]
@[simp] theorem receive_outTrace (s : State) (b : Byte) : (s.receive b).outTrace = s.outTrace := by
  rw [receive_frame]
@[simp] theorem receive_txLog (s : State) (b : Byte) : (s.receive b).txLog = s.txLog := by
  rw [receive_frame]
@[simp] theorem receive_agenda (s : State) (b : Byte) : (s.receive b).agenda = s.agenda := by
  rw [receive_frame]

/-- A sample touches the state machine of AUTO mode and, where it fires, the outputs and the hold
(R96, R97). -/
theorem sampleStep_frame (s : State) : s.sampleStep = { s with
    out := s.sampleStep.out, phase := s.sampleStep.phase, hmask := s.sampleStep.hmask,
    deadline := s.sampleStep.deadline, arm := s.sampleStep.arm, relValid := s.sampleStep.relValid,
    relStart := s.sampleStep.relStart, outTrace := s.sampleStep.outTrace,
    draws := s.sampleStep.draws } := by
  rcases s.sampleStep_cases with ⟨-, -, h⟩ | ⟨-, -, h⟩ | ⟨-, -, h⟩ | ⟨-, -, -, h⟩ |
    ⟨-, -, -, -, h⟩ | ⟨-, -, -, -, h⟩
  · rw [h, fire_eq]
    rfl
  all_goals
    rw [h]
    rfl

@[simp] theorem sampleStep_cfg (s : State) : s.sampleStep.cfg = s.cfg := by rw [sampleStep_frame]
@[simp] theorem sampleStep_dur (s : State) : s.sampleStep.dur = s.dur := by rw [sampleStep_frame]
@[simp] theorem sampleStep_rxq (s : State) : s.sampleStep.rxq = s.rxq := by rw [sampleStep_frame]
@[simp] theorem sampleStep_now (s : State) : s.sampleStep.now = s.now := by rw [sampleStep_frame]
@[simp] theorem sampleStep_pullupEn (s : State) : s.sampleStep.pullupEn = s.pullupEn := by
  rw [sampleStep_frame]
@[simp] theorem sampleStep_txLog (s : State) : s.sampleStep.txLog = s.txLog := by
  rw [sampleStep_frame]
@[simp] theorem sampleStep_rxOvf (s : State) : s.sampleStep.rxOvf = s.rxOvf := by
  rw [sampleStep_frame]
@[simp] theorem sampleStep_agenda (s : State) : s.sampleStep.agenda = s.agenda := by
  rw [sampleStep_frame]

@[simp] theorem fire_out (s : State) : s.fire.out = s.out ||| lineBit s.cfg.trigLine := by
  rw [fire_eq]
@[simp] theorem fire_phase (s : State) : s.fire.phase = .hold := by rw [fire_eq]
@[simp] theorem fire_hmask (s : State) : s.fire.hmask = lineBit s.cfg.trigLine := by rw [fire_eq]
@[simp] theorem fire_arm (s : State) : s.fire.arm = .disarmed := by rw [fire_eq]
@[simp] theorem fire_outTrace (s : State) :
    s.fire.outTrace = s.outTrace ++ [(s.now, s.out ||| lineBit s.cfg.trigLine)] := by
  rw [fire_eq]

end Sys2Proof.Machine.State
end

section
/-! SUPPORT. Executing a command: what every command leaves unchanged, that `ExecCase` determines
the result, and the results of the pulse, level and input opcodes (42_pulse_generator.md to
44_input_opcodes.md). -/

namespace Sys2Proof.Machine

/-! ## What no command touches -/

/-- `t` agrees with `s` in everything that no command writes: the build, the queue and its overflow
flag, the state machine of AUTO mode, time, the pull-ups, the pins and the moves to come. -/
structure CommandFrame (s t : State) : Prop where
  cfg : t.cfg = s.cfg
  rxq : t.rxq = s.rxq
  rxOvf : t.rxOvf = s.rxOvf
  arm : t.arm = s.arm
  relValid : t.relValid = s.relValid
  relStart : t.relStart = s.relStart
  now : t.now = s.now
  pullupEn : t.pullupEn = s.pullupEn
  pinLevel : t.pinLevel = s.pinLevel
  pinDriven : t.pinDriven = s.pinDriven
  agenda : t.agenda = s.agenda

theorem ExecCase.frame {i : Instr} {s t : State} (h : ExecCase i s t) : CommandFrame s t := by
  cases h with
  | duration d _ ht => subst ht; constructor <;> rfl
  | pulse m _ ht => subst ht; constructor <;> rfl
  | raise m _ ht => subst ht; constructor <;> rfl
  | lower m _ ht => subst ht; constructor <;> rfl
  | answer _ ht => subst ht; constructor <;> rfl
  | nothing _ ht => subst ht; constructor <;> rfl

/-- A command keeps the phase, but for a pulse, which ends in HOLD (R74, R81). -/
theorem ExecCase.phase {i : Instr} {s t : State} (h : ExecCase i s t) :
    t.phase = s.phase ∨ t.phase = .hold := by
  cases h with
  | duration d _ ht => exact .inl (by rw [ht, State.setDur_phase])
  | pulse m _ ht => exact .inr (by rw [ht, State.pulseStart_phase])
  | raise m _ ht => exact .inl (by rw [ht, State.outWrite_phase])
  | lower m _ ht => exact .inl (by rw [ht, State.outWrite_phase])
  | answer _ ht => exact .inl (by rw [ht, State.txAppend_phase, State.drawn_phase])
  | nothing _ ht => exact .inl (by rw [ht])

/-- `ExecCase` says all there is: it determines what executing the command answers. -/
theorem ExecCase.exec_eq {i : Instr} {s t : State} (h : ExecCase i s t) : exec i s = .next t := by
  cases h with
  | duration d hi ht => rw [hi, ht, exec_setPulseDuration]
  | pulse m hi ht =>
    rcases hi with hi | ⟨k, named, hi, hm⟩
    · rw [hi, ht, exec_pulseMask]
    · rw [hi, ht, hm, exec_pulseLine_named named]
  | raise m hi ht =>
    rcases hi with hi | ⟨k, named, hi, hm⟩
    · rw [hi, ht, exec_setMaskHigh]
    · rw [hi, ht, hm, exec_setLineHigh_named named]
  | lower m hi ht =>
    rcases hi with hi | ⟨k, named, hi, hm⟩
    · rw [hi, ht, exec_setMaskLow]
    · rw [hi, ht, hm, exec_setLineLow_named named]
  | answer hi ht => rw [hi, ht, exec_getButtonMask]
  | nothing hi ht =>
    rcases hi with ⟨o, hi⟩ | ⟨k, unnamed, hi | hi | hi⟩
    · rw [hi, ht, exec_unknown]
    · rw [hi, ht, exec_pulseLine_unnamed unnamed]
    · rw [hi, ht, exec_setLineHigh_unnamed unnamed]
    · rw [hi, ht, exec_setLineLow_unnamed unnamed]

/-- Settles O28: a command keeps IDLE or starts a hold, and a fall ends in IDLE from any state. -/
theorem commandEndsReady : Obligations.CommandEndsReady := by
  unfold Obligations.CommandEndsReady
  intro i s idle
  obtain ⟨t, ht, hx⟩ := exec_cases i s
  exact ⟨t, ht, hx.phase.imp_left (·.trans idle), t.fallStep_phase⟩

/-! ## Pulses -/

/-- The hold length that is drawn is one the duration admits (R81). -/
theorem State.holdTicks_admitted (s : State) (d : Half) : admitsHold s.cfg d (s.holdTicks d) :=
  s.holdTicks_bounds d

/-- Settles O8: the rise is `State.pulseStart` of the mask. -/
theorem pulseMaskResult : Obligations.PulseMaskResult := by
  unfold Obligations.PulseMaskResult
  refine fun m s => ⟨_, _, s.holdTicks_admitted s.dur, exec_pulseMask m s, fun i _ => ?_, rfl⟩
  rw [State.pulseStart_out, BitVec.getLsbD_or]

/-- Settles O9: a named line's pulse is the pulse of its mask, which has that line alone; an index
of 8 or more changes nothing. -/
theorem pulseLineResult : Obligations.PulseLineResult := by
  unfold Obligations.PulseLineResult
  refine fun i s => ⟨fun named => ?_, fun unnamed => exec_pulseLine_unnamed unnamed s⟩
  refine ⟨_, _, s.holdTicks_admitted s.dur, exec_pulseLine_named named s, fun j hj => ?_,
    fun j hj => ?_, rfl⟩
  · rw [State.pulseStart_out, BitVec.getLsbD_or, lineMask_getLsbD named hj]
  · rw [State.pulseStart_hmask, lineMask_getLsbD named hj]

/-- Of two durations set one after the other the second is left (R83). -/
theorem State.setDur_setDur (s : State) (d1 d2 : Half) :
    (s.setDur d1).setDur d2 = s.setDur d2 := rfl

/-- Settles O21: the second duration leaves the state that it alone leaves, and the pulse is held
for it. -/
theorem laterDurationCounts : Obligations.LaterDurationCounts := by
  unfold Obligations.LaterDurationCounts
  intro d1 d2 m s
  refine ⟨_, _, _, exec_setPulseDuration d1 s, exec_setPulseDuration d2 _,
    exec_setPulseDuration d2 s, by rw [State.setDur_setDur], ?_⟩
  rw [State.setDur_setDur]
  exact ⟨_, _, (s.setDur d2).holdTicks_admitted d2, exec_pulseMask m _,
    State.pulseStart_deadline _ _ _⟩

/-! ## Levels -/

/-- A level opcode's second write of the value it reads back gives the same value (R38). -/
theorem level_twice_of_named {k : Byte} (named : k.toNat < 8) (s : State) :
    (∃ t u, exec (.setLineHigh k) s = .next t ∧ exec (.setLineHigh k) t = .next u ∧ u.out = t.out) ∧
    ∃ t u, exec (.setLineLow k) s = .next t ∧ exec (.setLineLow k) t = .next u ∧ u.out = t.out := by
  refine ⟨⟨_, _, exec_setLineHigh_named named s, exec_setLineHigh_named named _, ?_⟩,
    ⟨_, _, exec_setLineLow_named named s, exec_setLineLow_named named _, ?_⟩⟩
  · simp only [State.outWrite_out, BitVec.or_assoc, BitVec.or_self]
  · simp only [State.outWrite_out, BitVec.and_assoc, BitVec.and_self]

/-- Settles O19: raising or lowering a mask twice is doing it once, and an index that names no line
changes nothing either time. -/
theorem levelOpcodesIdempotent : Obligations.LevelOpcodesIdempotent := by
  unfold Obligations.LevelOpcodesIdempotent
  intro a s i hi
  simp only [List.mem_cons, List.not_mem_nil, or_false] at hi
  rcases hi with rfl | rfl | rfl | rfl
  · refine ⟨_, _, exec_setMaskHigh a s, exec_setMaskHigh a _, ?_⟩
    simp only [State.outWrite_out, BitVec.or_assoc, BitVec.or_self]
  · refine ⟨_, _, exec_setMaskLow a s, exec_setMaskLow a _, ?_⟩
    simp only [State.outWrite_out, BitVec.and_assoc, BitVec.and_self]
  · by_cases named : a.toNat < 8
    · exact (level_twice_of_named named s).1
    · have unnamed := exec_setLineHigh_unnamed (Nat.not_lt.mp named) s
      exact ⟨s, s, unnamed, unnamed, rfl⟩
  · by_cases named : a.toNat < 8
    · exact (level_twice_of_named named s).2
    · have unnamed := exec_setLineLow_unnamed (Nat.not_lt.mp named) s
      exact ⟨s, s, unnamed, unnamed, rfl⟩

/-- Settles O44: a named line's bit becomes the level and the others stay. -/
theorem writeLineResult : Obligations.WriteLineResult := by
  unfold Obligations.WriteLineResult
  refine fun s i level => ⟨fun named => ?_, fun unnamed => s.writeLine_unnamed i level unnamed⟩
  rw [s.writeLine_named i level named]
  refine ⟨fun j hj => ?_, s.outWrite_frame _⟩
  cases level with
  | true =>
    rw [if_pos rfl, State.outWrite_out, BitVec.getLsbD_or, lineMask_getLsbD named hj]
    by_cases same : j = i.toNat <;> simp [same]
  | false =>
    rw [if_neg Bool.false_ne_true, State.outWrite_out, getLsbD_and_not _ _ hj,
      lineMask_getLsbD named hj]
    by_cases same : j = i.toNat <;> simp [same]

/-- Settles O45: the `i`-th pin from `OUT_PINS` shows bit `i`, and the pin ranges of a build that R6
admits are disjoint. -/
theorem outputPinMapping : Obligations.OutputPinMapping := by
  unfold Obligations.OutputPinMapping
  intro s i wf hi
  have eight : Config.lines = 8 := rfl
  have disjoint : s.cfg.outPins + Config.lines ≤ s.cfg.inPins ∨
      s.cfg.inPins + Config.lines ≤ s.cfg.outPins := by
    simp only [Config.wf, Bool.and_eq_true, Bool.or_eq_true, decide_eq_true_eq] at wf
    exact wf.2
  constructor
  · rw [State.outPinLevel, Config.outPinOf, if_pos (by omega), Nat.add_sub_cancel_left,
      State.outPin]
  · rw [State.outPinLevel, Config.inPinOf, if_neg (by omega)]

/-! ## Inputs -/

/-- Settles O15: the answer is the sampled mask, which `sampleIsPolarityCorrected` reads bit by
bit. -/
theorem getButtonMaskResult : Obligations.GetButtonMaskResult := by
  unfold Obligations.GetButtonMaskResult
  intro s
  obtain ⟨driven_bits, open_bits, -⟩ := sampleIsPolarityCorrected s
  refine ⟨decode_getButtonMask [], _, rfl, exec_getButtonMask s, fun i hi driven => ?_, open_bits⟩
  rw [driven_bits i hi driven]
  cases hp : s.cfg.pol <;> simp

/-- Opcode 20 appends the mask of the inputs, and nothing else, to `TXLOG` (R92). -/
theorem getButtonMask_answer {s t : State} (h : exec .getButtonMask s = .next t) :
    t.txLog = s.txLog ++ [s.inputMask] ∧ CommandFrame s t := by
  obtain ⟨t', ht, hx⟩ := exec_cases .getButtonMask s
  rw [h] at ht
  cases ht
  rw [exec_getButtonMask] at h
  cases h
  exact ⟨State.txAppend_txLog _ _, hx.frame⟩

/-- Where a sample meets no draw, no command changes what the next sample reads (R38, R64). -/
theorem CommandFrame.inputMask {s t : State} (h : CommandFrame s t) (steady : s.inputsSteady) :
    t.inputMask = s.inputMask :=
  State.inputMask_steady s t steady h.cfg h.pinLevel h.pinDriven

theorem CommandFrame.inputsSteady {s t : State} (h : CommandFrame s t) (steady : s.inputsSteady) :
    t.inputsSteady := by
  rwa [State.inputsSteady, h.cfg, h.pinDriven]

/-- Settles O20: both answers are the mask of the inputs, which neither command changes. -/
theorem buttonMaskRepeats : Obligations.ButtonMaskRepeats := by
  unfold Obligations.ButtonMaskRepeats
  intro s t u v i b steady first answered between again
  obtain ⟨first_mask, first_frame⟩ := getButtonMask_answer first
  obtain ⟨again_mask, -⟩ := getButtonMask_answer again
  obtain ⟨u', hu, hx⟩ := exec_cases i t
  rw [between] at hu
  cases hu
  have same : u.inputMask = s.inputMask :=
    (hx.frame.inputMask (first_frame.inputsSteady steady)).trans (first_frame.inputMask steady)
  have byte : [b] = [s.inputMask] := List.append_cancel_left (answered.symm.trans first_mask)
  rw [again_mask, same, byte]

/-- What a command other than opcode 20 does, it does whatever the pins show (R67). -/
theorem ExecCase.setPins {i : Instr} {s t : State} (h : ExecCase i s t) (hi : i ≠ .getButtonMask)
    (level driven : Byte) : ExecCase i (s.setPins level driven) (t.setPins level driven) := by
  cases h with
  | duration d hd ht => subst ht; exact .duration d hd rfl
  | pulse m hm ht => subst ht; exact .pulse m hm rfl
  | raise m hm ht => subst ht; exact .raise m hm rfl
  | lower m hm ht => subst ht; exact .lower m hm rfl
  | answer h20 _ => exact absurd h20 hi
  | nothing hn ht => subst ht; exact .nothing hn rfl

/-- Settles O22: `ExecCase.setPins`, and `ExecCase` determines the result. -/
theorem ofCommandsOnlyOpcode20ReadsInputs : Obligations.OfCommandsOnlyOpcode20ReadsInputs := by
  unfold Obligations.OfCommandsOnlyOpcode20ReadsInputs
  intro i s level driven hi
  obtain ⟨t, ht, hx⟩ := exec_cases i s
  exact ⟨t, ht, (hx.setPins hi level driven).exec_eq⟩

end Sys2Proof.Machine
end

section
/-! SUPPORT. Moves (41_dispatcher.md R76 to R79): an equation for each move, and what every move
does to the build, to time, to the moves to come and to the output trace. -/

namespace Sys2Proof.Machine

/-! ## One equation for each event -/

theorem step_rx {s : State} {b : Byte} {later : List Move} (h : s.agenda = .rx b :: later) :
    step s = .next ((s.setAgenda later).receive b) := by
  rw [step, State.nextMove, h]

theorem step_pins {s : State} {level driven : Byte} {later : List Move}
    (h : s.agenda = .pins level driven :: later) :
    step s = .next ((s.setAgenda later).setPins level driven) := by
  rw [step, State.nextMove, h]

theorem step_rst {s : State} {later : List Move} (h : s.agenda = .rst :: later) :
    step s = .next (s.setAgenda later).resetBlock := by
  rw [step, State.nextMove, h]

/-- A tick that is enabled (R78). -/
theorem step_tick {s : State} {later : List Move} (h : s.agenda = .tick :: later)
    (hd : s.fallDue = false) : step s = .next ((s.setAgenda later).setNow (s.now + 1)) := by
  rw [step, State.nextMove, h]
  simp only [hd, Bool.false_eq_true, if_false]
  rfl

/-- A tick asked for while a fall is due waits for the fall (R78; log 4). -/
theorem step_tick_due {s : State} {later : List Move} (h : s.agenda = .tick :: later)
    (hd : s.fallDue = true) : step s = .next s.fallStep := by
  rw [step, State.nextMove, h]
  simp only [hd, if_true]

/-! ## One equation for each controller step -/

theorem State.fallDue_of_not_hold {s : State} (h : s.phase ≠ .hold) : s.fallDue = false :=
  Bool.eq_false_iff.mpr fun due => h (s.fallDue_iff.mp due).1

theorem State.fallDue_of_early {s : State} (h : s.now < s.deadline) : s.fallDue = false :=
  Bool.eq_false_iff.mpr fun due => absurd (s.fallDue_iff.mp due).2 (Nat.not_le.mpr h)

theorem State.dispatchEnabled_of_hold {s : State} (h : s.phase = .hold) :
    s.dispatchEnabled = false :=
  Bool.eq_false_iff.mpr fun enabled => (s.dispatchEnabled_iff.mp enabled).2.1 h

theorem State.sampleEnabled_of_not_idle {s : State} (h : s.phase ≠ .idle) :
    s.sampleEnabled = false :=
  Bool.eq_false_iff.mpr fun enabled => h (s.sampleEnabled_iff.mp enabled).2

/-- The controller with a fall due (R82). -/
theorem controllerStep_fall {s : State} (hd : s.fallDue = true) :
    controllerStep s = .next s.fallStep := by
  have hold := (s.fallDue_iff.mp hd).1
  rw [controllerStep, s.dispatchEnabled_of_hold hold, if_neg Bool.false_ne_true,
    State.fallEnabled, if_pos hd]

/-- The controller in AUTO mode with no pulse held (R96). -/
theorem controllerStep_sample {s : State} (hmode : s.cfg.mode = .auto) (hp : s.phase = .idle) :
    controllerStep s = .next s.sampleStep := by
  have dispatch : s.dispatchEnabled = false :=
    Bool.eq_false_iff.mpr fun enabled => by simp [s.dispatchEnabled_iff, hmode] at enabled
  have fall : s.fallEnabled = false := s.fallDue_of_not_hold (by rw [hp]; exact Phase.noConfusion)
  rw [controllerStep, dispatch, if_neg Bool.false_ne_true, fall, if_neg Bool.false_ne_true,
    if_pos (s.sampleEnabled_iff.mpr ⟨hmode, hp⟩)]

/-- The controller with no step enabled (R69, R108). -/
theorem controllerStep_waits {s : State} (dispatch : s.dispatchEnabled = false)
    (fall : s.fallDue = false) (sample : s.sampleEnabled = false) : controllerStep s = .next s := by
  rw [controllerStep, dispatch, if_neg Bool.false_ne_true, State.fallEnabled, fall,
    if_neg Bool.false_ne_true, sample, if_neg Bool.false_ne_true]

/-- The controller before the deadline of a hold (R82). -/
theorem controllerStep_hold {s : State} (hp : s.phase = .hold) (early : s.now < s.deadline) :
    controllerStep s = .next s :=
  controllerStep_waits (s.dispatchEnabled_of_hold hp) (s.fallDue_of_early early)
    (s.sampleEnabled_of_not_idle (by rw [hp]; exact Phase.noConfusion))

/-- A controller in ARGS takes the oldest byte of `RXQ` as an argument (R69, R71). -/
theorem controllerStep_args_cmd {s : State} {p : PartialCommand} {b : Byte} {q : List Byte}
    (hmode : s.cfg.mode = .cmd) (hp : s.phase = .args p) (hq : s.rxq = b :: q) :
    controllerStep s = argumentByte p b (s.setRxq q) := by
  have enabled : s.dispatchEnabled = true :=
    s.dispatchEnabled_iff.mpr ⟨hmode, by simp [hp], by simp [hq]⟩
  have popped : s.rxPop = some (b, s.setRxq q) := by simp only [State.rxPop, hq]
  rw [controllerStep, if_pos enabled]
  simp only [dispatchStep, popped, hp]

/-- An opcode byte that takes no argument executes at once (R70). -/
theorem opcodeByte_of_argLen_zero {b : Byte} (h : argLen b = some 0) (s : State) :
    opcodeByte b s = exec (instrOf b 0 0) s := by
  simp only [opcodeByte, h]
  rfl

/-- An opcode byte that takes arguments waits for them (R70). -/
theorem opcodeByte_of_argLen_succ {b : Byte} {n : Nat} (h : argLen b = some (n + 1)) (s : State) :
    opcodeByte b s = .next (s.setPhase (.args (.start b (n + 1)))) := by
  simp only [opcodeByte, h]

/-- The last argument byte executes the command (R71). -/
theorem argumentByte_last {p : PartialCommand} (h : p.argc + 1 = p.need) (b : Byte) (s : State) :
    argumentByte p b s =
      exec (instrOf p.opc (p.receive b).arg0 (p.receive b).arg1) (s.setPhase .idle) := by
  rw [argumentByte, if_pos (by simpa using h), execute, PartialCommand.receive_opc]

/-- Any other argument byte is stored (R71). -/
theorem argumentByte_stored {p : PartialCommand} (h : p.argc + 1 ≠ p.need) (b : Byte) (s : State) :
    argumentByte p b s = .next (s.setPhase (.args (p.receive b))) := by
  rw [argumentByte, if_neg (by simpa using h)]

/-- `StepCase` says all there is: it determines what the move answers. -/
theorem StepCase.step_eq {s t : State} (h : StepCase s t) : step s = .next t := by
  cases h with
  | arrives b rest hm ht => rw [ht, step_rx hm]
  | pins l d rest hm ht => rw [ht, step_pins hm]
  | tick rest hm hd ht => rw [ht, step_tick hm hd]
  | reset rest hm ht => rw [ht, step_rst hm]
  | fall a hd ha ht =>
    rcases ha with ⟨head, rfl⟩ | ⟨hc, rfl⟩
    · obtain ⟨rest, hm⟩ := List.head?_eq_some_iff.mp head
      rw [ht, step_tick_due hm hd]
      rfl
    · rw [ht, step_turn s hc, controllerStep_fall (s := s.turnTaken) hd]
      rfl
  | sample hc hmode hp ht =>
    rw [ht, step_turn s hc, controllerStep_sample (s := s.turnTaken) hmode hp]
  | opens hc hmode hp b q hq n hn ht =>
    rw [ht, step_turn s hc, controllerStep_idle_cmd (s := s.turnTaken) hmode hp hq,
      opcodeByte_of_argLen_succ hn]
  | collects hc hmode p hp b q hq hn ht =>
    rw [ht, step_turn s hc, controllerStep_args_cmd (s := s.turnTaken) hmode hp hq,
      argumentByte_stored hn]
  | executes hc hmode b q hq i hsrc hx =>
    rw [step_turn s hc, ← hx.exec_eq]
    rcases hsrc with ⟨hp, hn, rfl⟩ | ⟨hp, hn, rfl⟩ | ⟨p, hp, hn, rfl⟩
    · rw [controllerStep_idle_cmd (s := s.turnTaken) hmode hp hq, opcodeByte_of_argLen_none hn,
        setPhase_idle (s.turnTaken.setRxq q) hp]
    · rw [controllerStep_idle_cmd (s := s.turnTaken) hmode hp hq, opcodeByte_of_argLen_zero hn,
        setPhase_idle (s.turnTaken.setRxq q) hp]
    · rw [controllerStep_args_cmd (s := s.turnTaken) hmode hp hq, argumentByte_last hn]
  | waits hc hd hf hs ht =>
    rw [ht, step_turn s hc, controllerStep_waits (s := s.turnTaken) hd hf hs]

/-! ## The moves to come -/

namespace State

@[simp] theorem turnTaken_agenda_nil {s : State} (h : s.agenda = []) :
    s.turnTaken.agenda = [.tick] := by
  simp only [turnTaken, h]

@[simp] theorem turnTaken_agenda_cons {s : State} {m : Move} {rest : List Move}
    (h : s.agenda = m :: rest) : s.turnTaken.agenda = rest := by
  simp only [turnTaken, h]

/-- An event that is announced is not the controller's turn. -/
theorem ctrlTurn_of_event {s : State} {m : Move} {rest : List Move} (h : s.agenda = m :: rest)
    (hm : m ≠ .ctrl) : s.ctrlTurn = false := by
  cases m with
  | ctrl => exact absurd rfl hm
  | _ => simp only [ctrlTurn, h]

end State

namespace StepCase

variable {s t : State}

/-- Every move takes itself off the agenda, but for a tick that waits for a fall (log 4). -/
theorem agenda_eq (h : StepCase s t) :
    t.agenda = s.turnTaken.agenda ∨ (s.agenda.head? = some .tick ∧ t.agenda = s.agenda) := by
  cases h with
  | arrives b rest hm ht => left; simp [ht, State.turnTaken_agenda_cons hm]
  | pins l d rest hm ht => left; simp [ht, State.turnTaken_agenda_cons hm]
  | tick rest hm _ ht => left; simp [ht, State.turnTaken_agenda_cons hm]
  | reset rest hm ht => left; simp [ht, State.turnTaken_agenda_cons hm]
  | fall a _ ha ht =>
    rcases ha with ⟨head, ha⟩ | ⟨-, ha⟩
    · right; simp [ht, ha, head]
    · left; simp [ht, ha]
  | sample _ _ _ ht => left; simp [ht]
  | opens _ _ _ _ _ _ _ _ ht => left; simp [ht]
  | collects _ _ _ _ _ _ _ _ ht => left; simp [ht]
  | executes _ _ _ _ _ _ _ hx => left; exact hx.frame.agenda
  | waits _ _ _ _ ht => left; rw [ht]

/-- No move announces another one, but for the tick of free running (log 3). -/
theorem mem_agenda (h : StepCase s t) {m : Move} (hm : m ∈ t.agenda) :
    m ∈ s.agenda ∨ m = .tick := by
  rcases h.agenda_eq with e | ⟨-, e⟩
  · exact s.mem_turnTaken_agenda m (e ▸ hm)
  · exact .inl (e ▸ hm)

/-- A move other than a tick that is not announced is not announced later. -/
theorem not_mem_agenda (h : StepCase s t) {m : Move} (other : m ≠ .tick) (hm : m ∉ s.agenda) :
    m ∉ t.agenda := fun later => (h.mem_agenda later).elim hm other

theorem noReset (h : StepCase s t) (hr : s.noReset) : t.noReset :=
  h.not_mem_agenda Move.noConfusion hr

/-- A reset that is announced is made (R121). -/
theorem of_rst (h : StepCase s t) (hr : s.agenda.head? = some .rst) :
    t = s.turnTaken.resetBlock := by
  obtain ⟨rest, hm⟩ := List.head?_eq_some_iff.mp hr
  have answers := h.step_eq.symm.trans (step_rst hm)
  rw [s.turnTaken_eq, State.turnTaken_agenda_cons hm]
  exact Host.Outcome.next.inj answers

/-! ## The build and time -/

/-- No move writes the build (R15). -/
theorem cfg_eq (h : StepCase s t) : t.cfg = s.cfg := by
  cases h with
  | arrives _ _ _ ht => simp [ht]
  | pins _ _ _ _ ht => simp [ht]
  | tick _ _ _ ht => simp [ht]
  | reset _ _ ht => simp [ht]
  | fall _ _ _ ht => simp [ht]
  | sample _ _ _ ht => simp [ht]
  | opens _ _ _ _ _ _ _ _ ht => simp [ht]
  | collects _ _ _ _ _ _ _ _ ht => simp [ht]
  | executes _ _ _ _ _ _ _ hx => exact hx.frame.cfg
  | waits _ _ _ _ ht => simp [ht]

/-- Time stands still but for a tick, which adds 1 and is made only where no fall is due (R26,
R78). -/
theorem now_cases (h : StepCase s t) :
    t.now = s.now ∨ (t.now = s.now + 1 ∧ s.agenda.head? = some .tick ∧ s.fallDue = false) := by
  cases h with
  | arrives _ _ _ ht => left; simp [ht]
  | pins _ _ _ _ ht => left; simp [ht]
  | tick _ hm hd ht => right; simp [ht, hm, hd]
  | reset _ _ ht => left; simp [ht]
  | fall _ _ _ ht => left; simp [ht]
  | sample _ _ _ ht => left; simp [ht]
  | opens _ _ _ _ _ _ _ _ ht => left; simp [ht]
  | collects _ _ _ _ _ _ _ _ ht => left; simp [ht]
  | executes _ _ _ _ _ _ _ hx => left; exact hx.frame.now
  | waits _ _ _ _ ht => left; simp [ht]

/-- A move other than a tick takes itself off the agenda, and time stands still. -/
theorem used (h : StepCase s t) (hm : s.agenda.head? ≠ some .tick) :
    t.agenda = s.turnTaken.agenda ∧ t.now = s.now :=
  ⟨h.agenda_eq.resolve_right fun tick => hm tick.1,
    h.now_cases.resolve_right fun tick => hm tick.2.1⟩

theorem now_le (h : StepCase s t) : s.now ≤ t.now := by
  rcases h.now_cases with e | ⟨e, -, -⟩ <;> omega

end StepCase

/-! ## Events -/

theorem State.receive_auto {s : State} (h : s.cfg.mode = .auto) (b : Byte) : s.receive b = s := by
  rw [State.receive, h]

theorem State.receive_room {s : State} (h : s.cfg.mode = .cmd) (room : s.rxq.length < s.cfg.rxDepth)
    (b : Byte) : s.receive b = s.setRxq (s.rxq ++ [b]) := by
  rw [State.receive, h]
  exact if_pos room

theorem State.receive_full {s : State} (h : s.cfg.mode = .cmd) (full : s.cfg.rxDepth ≤ s.rxq.length)
    (b : Byte) : s.receive b = s.setOvf := by
  rw [State.receive, h]
  exact if_neg (Nat.not_lt.mpr full)

/-- Settles O31: the three equations of `State.receive`. -/
theorem byteArrival : Obligations.ByteArrival := by
  unfold Obligations.ByteArrival
  intro s b later h
  rw [step_rx h]
  refine ⟨fun cmd room => ?_, fun cmd full => ?_, fun auto => ?_⟩
  · rw [State.receive_room (s := s.setAgenda later) cmd room]
    rfl
  · rw [State.receive_full (s := s.setAgenda later) cmd full]
    rfl
  · rw [State.receive_auto (s := s.setAgenda later) auto]
    rfl

/-- Settles O32: the event's equation is `State.setPins`. -/
theorem inputChange : Obligations.InputChange := by
  unfold Obligations.InputChange
  exact fun s level driven later h => step_pins h

/-- Settles O33: the two equations of a tick. -/
theorem tickWaitsForFall : Obligations.TickWaitsForFall := by
  unfold Obligations.TickWaitsForFall
  refine fun s later h => ⟨fun free => ?_, fun due => ?_⟩
  · exact step_tick h (Bool.eq_false_iff.mpr (mt s.fallDue_iff.mp free))
  · exact ⟨_, step_tick_due h (s.fallDue_iff.mpr due), s.fallStep_now, s.fallStep_phase,
      s.fallStep_agenda, s.fallStep_out⟩

/-- Settles O51: the reset's equation is `State.resetBlock`. -/
theorem resetResult : Obligations.ResetResult := by
  unfold Obligations.ResetResult
  intro s later h
  rw [step_rst h, State.resetBlock_eq]
  rfl

/-- Settles O52: `State.powerUp` field by field. -/
theorem powerUpState : Obligations.PowerUpState := by
  unfold Obligations.PowerUpState
  refine ⟨fun c level driven moves => ?_, ⟨Config.reference, 0xFF, 0x00, [], by decide, rfl⟩⟩
  exact ⟨rfl, rfl, rfl, rfl, rfl, rfl, rfl, rfl, rfl, rfl, rfl, rfl, rfl, rfl, rfl⟩

/-! ## Runs -/

/-- Settles O30: dispatch asks for CMD mode and no hold, a fall for a hold, a sample for AUTO mode
and IDLE. -/
theorem atMostOneStepKindEnabled : Obligations.AtMostOneStepKindEnabled := by
  unfold Obligations.AtMostOneStepKindEnabled
  intro s
  rw [s.dispatchEnabled_iff, State.fallEnabled, s.fallDue_iff, s.sampleEnabled_iff]
  refine ⟨?_, ?_, ?_⟩
  · rintro ⟨⟨-, free, -⟩, hold, -⟩
    exact free hold
  · rintro ⟨⟨cmd, -, -⟩, auto, -⟩
    rw [cmd] at auto
    cases auto
  · rintro ⟨⟨hold, -⟩, -, idle⟩
    rw [hold] at idle
    cases idle

/-- Settles O34: `StepCase.now_cases`. -/
theorem nowChangesOnlyByTick : Obligations.NowChangesOnlyByTick := by
  unfold Obligations.NowChangesOnlyByTick
  intro s t h
  rcases (step_cases h).now_cases with same | ⟨next, head, free⟩
  · exact .inl same
  · exact .inr ⟨next, head, fun due => by simp [s.fallDue_iff.mpr due] at free⟩

/-- Settles O35, by induction on the number of moves: each answers a next state. -/
theorem everyStepAnswersNext : Obligations.EveryStepAnswersNext := by
  unfold Obligations.EveryStepAnswersNext
  intro k
  induction k with
  | zero => exact fun s => ⟨s, s.after_zero⟩
  | succ k ih =>
    intro s
    obtain ⟨t, ht, -⟩ := step_next s
    obtain ⟨u, hu⟩ := ih t
    exact ⟨u, (State.after_succ k ht).trans hu⟩

/-- Settles O58: `StepCase.cfg_eq` along a run. -/
theorem buildConstantsNeverChange : Obligations.BuildConstantsNeverChange := by
  unfold Obligations.BuildConstantsNeverChange
  intro k s t
  exact State.after_keeps (fun u => u.cfg = s.cfg)
    (fun u v kept h => (step_cases h).cfg_eq.trans kept) k s t rfl

/-- A tick that is announced is made at once, or right after the fall it waits for (R78). -/
theorem time_advances_of_tick {s : State} {later : List Move} (h : s.agenda = .tick :: later) :
    ∃ k t, k ≤ 2 ∧ s.after k = some t ∧ s.now < t.now := by
  cases hd : s.fallDue with
  | false =>
    refine ⟨1, _, by omega, State.after_succ 0 (step_tick h hd), ?_⟩
    simp
  | true =>
    have free : s.fallStep.fallDue = false :=
      State.fallDue_of_not_hold (by rw [s.fallStep_phase]; exact Phase.noConfusion)
    have ticks := step_tick (s.fallStep_agenda.trans h) free
    refine ⟨2, _, le_rfl, (State.after_succ 1 (step_tick_due h hd)).trans
      (State.after_succ 0 ticks), ?_⟩
    simp

/-- Settles O36, by induction on the announced moves: each that is no tick is used up, and free
running reaches its tick after one turn. -/
theorem timeAdvances : Obligations.TimeAdvances := by
  unfold Obligations.TimeAdvances
  intro s
  induction hn : s.agenda generalizing s with
  | nil =>
    obtain ⟨t, ht, hc⟩ := step_next s
    obtain ⟨agenda, now⟩ := hc.used (by simp [hn])
    obtain ⟨k, u, hk, hu, later⟩ :=
      time_advances_of_tick (agenda.trans (State.turnTaken_agenda_nil hn))
    refine ⟨k + 1, u, ?_, (State.after_succ k ht).trans hu, now ▸ later⟩
    rw [List.length_nil]
    omega
  | cons m rest ih =>
    by_cases tick : m = .tick
    · obtain ⟨k, u, hk, hu, later⟩ := time_advances_of_tick (tick ▸ hn)
      exact ⟨k, u, by omega, hu, later⟩
    · obtain ⟨t, ht, hc⟩ := step_next s
      obtain ⟨agenda, now⟩ := hc.used (by simp [hn, tick])
      obtain ⟨k, u, hk, hu, later⟩ := ih t (agenda.trans (State.turnTaken_agenda_cons hn))
      refine ⟨k + 1, u, ?_, (State.after_succ k ht).trans hu, now ▸ later⟩
      rw [List.length_cons]
      omega

end Sys2Proof.Machine
end

section
/-! SUPPORT. The writes of `OUT` (40_gpio_lines.md section 2) and the hold of a pulse
(42_pulse_generator.md): who writes, what a held pulse keeps, and how it ends. -/

namespace Sys2Proof.Machine

/-! ## Who writes the outputs -/

/-- The commands that write `OUT`, each with the value it writes over the value `old` (R84 to
R91). -/
def commandWrites (i : Instr) (old new : Byte) : Prop :=
  (∃ m, (i = .pulseMask m ∨ i = .setMaskHigh m) ∧ new = old ||| m) ∨
  (∃ m, i = .setMaskLow m ∧ new = old &&& ~~~ m) ∨
  (∃ k : Byte, k.toNat < 8 ∧ (i = .pulseLine k ∨ i = .setLineHigh k) ∧
    new = old ||| (1#8 <<< k.toNat)) ∨
  (∃ k : Byte, k.toNat < 8 ∧ i = .setLineLow k ∧ new = old &&& ~~~ (1#8 <<< k.toNat))

/-- A command leaves the outputs and the trace, or makes its one recorded write (R62). -/
theorem ExecCase.out_cases {i : Instr} {s t : State} (h : ExecCase i s t) :
    (t.out = s.out ∧ t.outTrace = s.outTrace) ∨
    (t.outTrace = s.outTrace ++ [(s.now, t.out)] ∧ commandWrites i s.out t.out) := by
  cases h with
  | duration d _ ht => left; simp [ht]
  | pulse m hi ht =>
    subst ht
    refine .inr ⟨State.pulseStart_outTrace _ _ _, ?_⟩
    rcases hi with hi | ⟨k, named, hi, rfl⟩
    · exact .inl ⟨m, .inl hi, rfl⟩
    · exact .inr (.inr (.inl ⟨k, named, .inl hi, rfl⟩))
  | raise m hi ht =>
    subst ht
    refine .inr ⟨State.outWrite_outTrace _ _, ?_⟩
    rcases hi with hi | ⟨k, named, hi, rfl⟩
    · exact .inl ⟨m, .inr hi, rfl⟩
    · exact .inr (.inr (.inl ⟨k, named, .inr hi, rfl⟩))
  | lower m hi ht =>
    subst ht
    refine .inr ⟨State.outWrite_outTrace _ _, ?_⟩
    rcases hi with hi | ⟨k, named, hi, rfl⟩
    · exact .inr (.inl ⟨m, hi, rfl⟩)
    · exact .inr (.inr (.inr ⟨k, named, hi, rfl⟩))
  | answer _ ht => left; simp [ht]
  | nothing _ ht => left; simp [ht]

/-- A sample fires, or leaves the outputs and the hold as they are, and ARMED if it was (R97 to
R101). -/
theorem State.sampleStep_fires_or_quiet (s : State) :
    (s.arm = .armed ∧ s.inputMask ≠ 0 ∧ s.sampleStep = s.drawn.fire) ∨
    (¬ (s.arm = .armed ∧ s.inputMask ≠ 0) ∧ (s.arm = .armed → s.sampleStep.arm = .armed) ∧
      s.sampleStep = { s with
        arm := s.sampleStep.arm, relValid := s.sampleStep.relValid,
        relStart := s.sampleStep.relStart, draws := s.sampleStep.draws }) := by
  have no_fire : s.arm = .disarmed → ¬ (s.arm = .armed ∧ s.inputMask ≠ 0) ∧
      (s.arm = .armed → s.sampleStep.arm = .armed) := fun a => by simp [a]
  rcases s.sampleStep_cases with h | ⟨a, m, e⟩ | ⟨a, -, e⟩ | ⟨a, -, -, e⟩ | ⟨a, -, -, -, e⟩ |
    ⟨a, -, -, -, e⟩
  · exact .inl h
  · exact .inr ⟨fun fires => fires.2 m, fun _ => by rw [e]; exact a, by rw [e]; rfl⟩
  · exact .inr ⟨(no_fire a).1, (no_fire a).2, by rw [e]; rfl⟩
  · exact .inr ⟨(no_fire a).1, (no_fire a).2, by rw [e]; rfl⟩
  · exact .inr ⟨(no_fire a).1, (no_fire a).2, by rw [e]; rfl⟩
  · exact .inr ⟨(no_fire a).1, (no_fire a).2, by rw [e]; rfl⟩

/-- A move leaves the outputs and the trace, or records the value it leaves on the pins, at this
instant (R17, R62). -/
theorem StepCase.out_cases {s t : State} (h : StepCase s t) :
    (t.out = s.out ∧ t.outTrace = s.outTrace) ∨ t.outTrace = s.outTrace ++ [(s.now, t.out)] := by
  cases h with
  | arrives _ _ _ ht => left; simp [ht]
  | pins _ _ _ _ ht => left; simp [ht]
  | tick _ _ _ ht => left; simp [ht]
  | reset _ _ ht => right; simp [ht]
  | fall _ _ _ ht => right; simp [ht]
  | sample _ _ _ ht =>
    rcases s.turnTaken.sampleStep_fires_or_quiet with ⟨-, -, e⟩ | ⟨-, -, e⟩
    · right; simp [ht, e]
    · left; rw [ht, e]; exact ⟨rfl, rfl⟩
  | opens _ _ _ _ _ _ _ _ ht => left; simp [ht]
  | collects _ _ _ _ _ _ _ _ ht => left; simp [ht]
  | executes _ _ _ _ _ _ _ hx => exact hx.out_cases.imp_right And.left
  | waits _ _ _ _ ht => left; simp [ht]

/-- The output trace only grows (R27). -/
theorem StepCase.outTrace_prefix {s t : State} (h : StepCase s t) : s.outTrace <+: t.outTrace := by
  rcases h.out_cases with ⟨-, e⟩ | e
  · rw [e]
  · exact ⟨_, e.symm⟩

/-- Settles O37: of the ways of `StepCase`, a reset, a fall, a fire and the last byte of a command
write, the last with the value that `ExecCase.out_cases` gives. -/
theorem outWriteMux : Obligations.OutWriteMux := by
  unfold Obligations.OutWriteMux
  intro s t framed h
  cases step_cases h with
  | arrives _ _ _ ht => left; simp [ht]
  | pins _ _ _ _ ht => left; simp [ht]
  | tick _ _ _ ht => left; simp [ht]
  | reset _ hm ht => exact .inr ⟨by simp [ht], .inl ⟨by simp [hm], by simp [ht]⟩⟩
  | fall a hd ha ht =>
    obtain ⟨hold, due⟩ := s.fallDue_iff.mp hd
    have turn : s.ctrlTurn = true ∨ s.agenda.head? = some .tick :=
      ha.symm.imp And.left And.left
    exact .inr ⟨by simp [ht], .inr (.inl ⟨turn, hold, due, by simp [ht]⟩)⟩
  | sample hc hmode hp ht =>
    rcases s.turnTaken.sampleStep_fires_or_quiet with ⟨armed, pressed, e⟩ | ⟨-, -, e⟩
    · have value : t.out = s.out ||| lineBit s.cfg.trigLine := by simp [ht, e]
      exact .inr ⟨by simp [ht, e], .inr (.inr (.inl
        ⟨hc, s.sampleEnabled_iff.mpr ⟨hmode, hp⟩, armed, pressed, value⟩))⟩
    · left; rw [ht, e]; exact ⟨rfl, rfl⟩
  | opens _ _ _ _ _ _ _ _ ht => left; simp [ht]
  | collects _ _ _ _ _ _ _ _ ht => left; simp [ht]
  | executes hc hmode b q hq i hsrc hx =>
    rcases hx.out_cases with same | ⟨recorded, writes⟩
    · exact .inl same
    · have free : s.phase ≠ .hold := by
        rcases hsrc with ⟨hp, -⟩ | ⟨hp, -⟩ | ⟨p, hp, -⟩ <;> rw [hp] <;> exact Phase.noConfusion
      have enabled : s.dispatchEnabled = true :=
        s.dispatchEnabled_iff.mpr ⟨hmode, free, by rw [hq]; exact List.cons_ne_nil b q⟩
      exact .inr ⟨recorded, .inr (.inr (.inr
        ⟨hc, enabled, b, q, i, hq, decode_of_source framed hsrc, writes⟩))⟩
  | waits _ _ _ _ ht => left; simp [ht]

/-! ## A pulse that is held -/

/-- While a pulse is held, a move that is no reset is its fall, or changes nothing but time, the
queue and its overflow flag, the pins and the moves to come (R42, R103). -/
theorem StepCase.of_hold {s t : State} (h : StepCase s t) (hp : s.phase = .hold)
    (hr : s.agenda.head? ≠ some .rst) :
    (s.fallDue = true ∧ (s.agenda.head? = some .tick ∨ s.ctrlTurn = true) ∧
      ∃ a, t = (s.setAgenda a).fallStep) ∨
    t = { s with now := t.now, rxq := t.rxq, rxOvf := t.rxOvf, pinLevel := t.pinLevel,
                 pinDriven := t.pinDriven, agenda := t.agenda } := by
  cases h with
  | arrives b rest _ ht => right; rw [ht, State.receive_frame]; rfl
  | pins _ _ _ _ ht => right; rw [ht]; rfl
  | tick _ _ _ ht => right; rw [ht]; rfl
  | reset _ hm _ => exact absurd (by simp [hm]) hr
  | fall a hd ha ht => exact .inl ⟨hd, ha.imp And.left And.left, a, ht⟩
  | sample _ _ idle _ => simp [hp] at idle
  | opens _ _ idle _ _ _ _ _ _ => simp [hp] at idle
  | collects _ _ p args _ _ _ _ _ => simp [hp] at args
  | executes _ _ _ _ _ _ hsrc _ => simp [hp] at hsrc
  | waits _ _ _ _ ht => right; rw [ht]; rfl

/-- Settles O43: before its deadline no fall is due. -/
theorem holdBlocksEverythingElse : Obligations.HoldBlocksEverythingElse := by
  unfold Obligations.HoldBlocksEverythingElse
  intro s t hp early hr h
  rcases (step_cases h).of_hold hp hr with ⟨hd, -⟩ | frame
  · rw [State.fallDue_of_early early] at hd
    cases hd
  · exact frame

/-- Settles O40: the turn is a wait before the deadline and `State.fallStep` from then on. -/
theorem fallStepResult : Obligations.FallStepResult := by
  unfold Obligations.FallStepResult
  intro s hp hc
  rw [step_turn s hc]
  refine ⟨fun early => controllerStep_hold hp early, fun due => ?_⟩
  obtain ⟨line, n, e, quiet⟩ := s.turnTaken.fallStep_cases
  refine ⟨_, line, controllerStep_fall (s.turnTaken.fallDue_iff.mpr ⟨hp, due⟩), fun i hi => ?_,
    ?_, fun h => ?_⟩
  · rw [State.fallStep_out, getLsbD_and_not _ _ hi]
    rfl
  · rw [e]
    rfl
  · rw [e]
    exact quiet h

/-- A hold that is not past its deadline is still not past it after a move: a tick waits for the
fall (R78). -/
theorem StepCase.now_le_deadline {s t : State} (h : StepCase s t) (hp : s.phase = .hold)
    (before : s.now ≤ s.deadline) : t.now ≤ s.deadline := by
  rcases h.now_cases with same | ⟨next, -, free⟩
  · omega
  · have early : ¬ s.deadline ≤ s.now := fun due => by
      simp [s.fallDue_iff.mpr ⟨hp, due⟩] at free
    omega

/-- `u` is on the way of the pulse that is held in `s`: it is held still, as it was, or the first
entry after its rise is its fall at the deadline (R82, R86). -/
def PulseRuns (s u : State) : Prop :=
  (u.phase = .hold ∧ u.out = s.out ∧ u.hmask = s.hmask ∧ u.deadline = s.deadline ∧
    u.outTrace = s.outTrace ∧ u.now ≤ s.deadline) ∨
  s.outTrace ++ [(s.deadline, s.out &&& ~~~ s.hmask)] <+: u.outTrace

theorem PulseRuns.step {s u v : State} (runs : PulseRuns s u) (hr : u.noReset) (h : StepCase u v) :
    PulseRuns s v := by
  rcases runs with ⟨hold, out, hmask, deadline, trace, before⟩ | fallen
  · have no_rst : u.agenda.head? ≠ some .rst := fun head => hr (List.mem_of_mem_head? head)
    have still := h.now_le_deadline hold (deadline ▸ before)
    rcases h.of_hold hold no_rst with ⟨hd, -, a, e⟩ | frame
    · have now : u.now = s.deadline :=
        Nat.le_antisymm before (deadline ▸ (u.fallDue_iff.mp hd).2)
      right
      rw [e, State.fallStep_outTrace]
      simp [out, hmask, trace, now]
    · left
      rw [deadline] at still
      rw [frame]
      exact ⟨hold, out, hmask, deadline, trace, still⟩
  · exact .inr (fallen.trans h.outTrace_prefix)

/-- Settles O41: `PulseRuns.step` along a run that announces no reset. -/
theorem pulseRunsToCompletion : Obligations.PulseRunsToCompletion := by
  unfold Obligations.PulseRunsToCompletion
  intro k s t hold before hr h
  refine (State.after_keeps (fun u => u.noReset ∧ PulseRuns s u) ?_ k s t ?_ h).2
  · rintro u v ⟨hu, runs⟩ huv
    exact ⟨(step_cases huv).noReset hu, runs.step hu (step_cases huv)⟩
  · exact ⟨hr, .inl ⟨hold, rfl, rfl, rfl, rfl, before⟩⟩

/-- In free running a hold falls after at most a turn and a tick for each tick left to its deadline
(R82; log 3): induction on the ticks left. -/
theorem hold_ends_of_free_running (n : Nat) :
    ∀ s : State, s.phase = .hold → s.now + n = s.deadline → s.agenda = [] →
      ∃ k t, k ≤ 2 * n + 1 ∧ s.after k = some t ∧ t.phase = .idle ∧ t.now = s.deadline ∧
        t.out = s.out &&& ~~~ s.hmask ∧
        t.outTrace = s.outTrace ++ [(s.deadline, s.out &&& ~~~ s.hmask)] := by
  induction n with
  | zero =>
    intro s hold left free
    have turn : s.ctrlTurn = true := by simp [State.ctrlTurn, free]
    have due : s.turnTaken.fallDue = true := s.turnTaken.fallDue_iff.mpr ⟨hold, by simp; omega⟩
    have falls := (step_turn s turn).trans (controllerStep_fall due)
    have now : s.now = s.deadline := left
    exact ⟨1, _, le_rfl, State.after_succ 0 falls, by simp, by simp [now], by simp, by simp [now]⟩
  | succ n ih =>
    intro s hold left free
    have turn : s.ctrlTurn = true := by simp [State.ctrlTurn, free]
    have early : s.turnTaken.now < s.turnTaken.deadline := by simp; omega
    have waits := (step_turn s turn).trans (controllerStep_hold hold early)
    have ticks := step_tick (State.turnTaken_agenda_nil free) (State.fallDue_of_early early)
    obtain ⟨k, t, hk, ht, end_idle, end_now, end_out, end_trace⟩ :=
      ih ((s.turnTaken.setAgenda []).setNow (s.turnTaken.now + 1)) hold (by simp; omega) rfl
    exact ⟨k + 2, t, by omega,
      (State.after_succ (k + 1) waits).trans ((State.after_succ k ticks).trans ht),
      end_idle, end_now, end_out, end_trace⟩

/-- Settles O42: the ticks left are those from now to the deadline. -/
theorem holdEndsAtDeadline : Obligations.HoldEndsAtDeadline := by
  unfold Obligations.HoldEndsAtDeadline
  exact fun s hold before free =>
    hold_ends_of_free_running (s.deadline - s.now) s hold (Nat.add_sub_of_le before) free

end Sys2Proof.Machine
end

section
/-! SUPPORT. The dispatcher (41_dispatcher.md R69 to R73): its framing is kept, a turn that takes a
byte runs what the bytes received decode to, and a command's bytes, one a turn, run that command. -/

namespace Sys2Proof.Machine

/-! ## Framing is kept (R19) -/

theorem State.framed_of_phase {s t : State} (h : t.phase = s.phase) (hs : s.Framed) : t.Framed :=
  fun p hp => hs p (h.symm.trans hp)

theorem State.framed_of_idle_or_hold {t : State} (h : t.phase = .idle ∨ t.phase = .hold) :
    t.Framed := fun p hp => by rcases h with h | h <;> simp [h] at hp

/-- A framed partial command that still lacks a byte after the next one lacks both of two. -/
theorem PartialCommand.lacks_both {p : PartialCommand} (known : argLen p.opc = some p.need)
    (fewer : p.argc < p.need) (more : p.argc + 1 ≠ p.need) : p.argc = 0 ∧ p.need = 2 := by
  have atMostTwo := argLen_le_two _ _ known
  omega

theorem StepCase.framed {s t : State} (h : StepCase s t) (hs : s.Framed) : t.Framed := by
  cases h with
  | arrives _ _ _ ht => exact State.framed_of_phase (by simp [ht]) hs
  | pins _ _ _ _ ht => exact State.framed_of_phase (by simp [ht]) hs
  | tick _ _ _ ht => exact State.framed_of_phase (by simp [ht]) hs
  | reset _ _ ht => exact State.framed_of_idle_or_hold (.inl (by simp [ht]))
  | fall _ _ _ ht => exact State.framed_of_idle_or_hold (.inl (by simp [ht]))
  | sample _ _ hp ht =>
    apply State.framed_of_idle_or_hold
    rcases s.turnTaken.sampleStep_fires_or_quiet with ⟨-, -, e⟩ | ⟨-, -, e⟩
    · exact .inr (by simp [ht, e])
    · left; rw [ht, e]; exact hp
  | opens _ _ _ b q _ n hn ht =>
    intro p hp
    rw [ht, State.setPhase_phase] at hp
    cases hp
    exact ⟨hn, Nat.succ_pos n⟩
  | collects _ _ p hp b q _ hn ht =>
    obtain ⟨known, fewer⟩ := hs p hp
    intro p' hp'
    rw [ht, State.setPhase_phase] at hp'
    cases hp'
    rw [PartialCommand.receive_opc, PartialCommand.receive_need, PartialCommand.receive_argc]
    exact ⟨known, by omega⟩
  | executes _ _ _ _ _ _ _ hx => exact State.framed_of_idle_or_hold hx.phase
  | waits _ _ _ _ ht => exact State.framed_of_phase (by simp [ht]) hs

/-! ## A turn that takes a byte (R69 to R73) -/

/-- A dispatching turn, said in the decoder's terms: the bytes received and the byte taken are a
command, which is executed, or a beginning of one, which is kept. -/
theorem StepCase.dispatched {s t : State} {b : Byte} {q : List Byte} (h : StepCase s t)
    (hs : s.Framed) (hmode : s.cfg.mode = .cmd) (free : s.phase ≠ .hold) (hq : s.rxq = b :: q)
    (hc : s.ctrlTurn = true) :
    (∃ i, decode (s.phase.bytes ++ [b]) = .ok (i, []) ∧
      exec i ((s.turnTaken.setRxq q).setPhase .idle) = .next t) ∨
    ∃ p, decode (s.phase.bytes ++ [b]) = .error (.missingArguments p.opc p.need p.argc) ∧
      Phase.bytes (.args p) = s.phase.bytes ++ [b] ∧
      t = (s.turnTaken.setRxq q).setPhase (.args p) := by
  have enabled : s.dispatchEnabled = true :=
    s.dispatchEnabled_iff.mpr ⟨hmode, free, by rw [hq]; exact List.cons_ne_nil b q⟩
  have no_event : ∀ m rest, s.agenda = m :: rest → m ≠ .ctrl → False := fun m rest hm other => by
    simp [State.ctrlTurn_of_event hm other] at hc
  cases h with
  | arrives _ _ hm _ => exact (no_event _ _ hm Move.noConfusion).elim
  | pins _ _ _ hm _ => exact (no_event _ _ hm Move.noConfusion).elim
  | tick _ hm _ _ => exact (no_event _ _ hm Move.noConfusion).elim
  | reset _ hm _ => exact (no_event _ _ hm Move.noConfusion).elim
  | fall _ hd _ _ => exact absurd (s.fallDue_iff.mp hd).1 free
  | sample _ auto _ _ => simp [hmode] at auto
  | waits _ hd _ _ _ => simp [enabled] at hd
  | executes _ _ b' q' hq' i hsrc hx =>
    obtain ⟨rfl, rfl⟩ := List.cons.inj (hq.symm.trans hq')
    exact .inl ⟨i, decode_of_source hs hsrc, hx.exec_eq⟩
  | opens _ _ hp b' q' hq' n hn ht =>
    obtain ⟨rfl, rfl⟩ := List.cons.inj (hq.symm.trans hq')
    have lacks : decode [b] = .error (.missingArguments b (n + 1) 0) :=
      decode_cons_of_missing hn (Nat.succ_pos n)
    rw [hp]
    exact .inr ⟨.start b (n + 1), lacks, rfl, ht⟩
  | collects _ _ p hp b' q' hq' hn ht =>
    obtain ⟨rfl, rfl⟩ := List.cons.inj (hq.symm.trans hq')
    obtain ⟨known, fewer⟩ := hs p hp
    obtain ⟨none_yet, two⟩ := PartialCommand.lacks_both known fewer hn
    have lacks : decode [p.opc, b] = .error (.missingArguments p.opc p.need 1) :=
      decode_cons_of_missing known (by simp [two])
    have opcode_only : s.phase.bytes = [p.opc] := by simp [hp, Phase.bytes, none_yet]
    rw [opcode_only]
    refine .inr ⟨p.receive b, ?_, ?_, ht⟩
    · simpa [none_yet] using lacks
    · simp [Phase.bytes, PartialCommand.receive, none_yet]

/-- Settles O23: of the two ways of `StepCase.dispatched`, the bytes decode only in the first. -/
theorem stepRunsDecodedCommand : Obligations.StepRunsDecodedCommand := by
  unfold Obligations.StepRunsDecodedCommand
  intro s b rest i framed hmode free hq hc read
  obtain ⟨t, ht, h⟩ := step_next s
  rcases h.dispatched framed hmode free hq hc with ⟨j, read', runs⟩ | ⟨p, lacks, -, -⟩
  · rw [read] at read'
    cases read'
    exact ht.trans runs.symm
  · rw [read] at lacks
    cases lacks

/-- Settles O24: of the two ways of `StepCase.dispatched`, bytes are missing only in the second. -/
theorem stepCollectsArguments : Obligations.StepCollectsArguments := by
  unfold Obligations.StepCollectsArguments
  intro s b rest op n k framed hmode free hq hc lacks
  obtain ⟨t, ht, h⟩ := step_next s
  rcases h.dispatched framed hmode free hq hc with ⟨j, read, -⟩ | ⟨p, lacks', bytes, e⟩
  · rw [lacks] at read
    cases read
  · rw [lacks] at lacks'
    cases lacks'
    exact ⟨p, ht.trans (congrArg _ e), rfl, rfl, rfl, bytes⟩

/-! ## A command, byte by byte (R41, R42) -/

/-- The rest of a command's bytes, taken one a turn, runs the command: induction on the bytes not
yet taken. What is received before the last byte is no command, because no command's bytes begin
another's. -/
theorem after_remaining_bytes {i : Instr} (wf : i.wellFormed = true) (rest : List Byte)
    (later : List Move) (todo : List Byte) :
    ∀ s : State, s.Framed → s.cfg.mode = .cmd → s.phase ≠ .hold → todo ≠ [] →
      s.phase.bytes ++ todo = encode i → s.rxq = todo ++ rest →
      s.agenda = List.replicate todo.length .ctrl ++ later →
      ∃ t, exec i (((s.setAgenda later).setRxq rest).setPhase .idle) = .next t ∧
        s.after todo.length = some t := by
  induction todo with
  | nil => exact fun s _ _ _ some_left => absurd rfl some_left
  | cons b todo ih =>
    intro s framed hmode free _ bytes hq ha
    have ha : s.agenda = .ctrl :: (List.replicate todo.length .ctrl ++ later) := ha
    have split : (s.phase.bytes ++ [b]) ++ todo = encode i := by
      rwa [List.append_assoc, List.singleton_append]
    obtain ⟨t, ht, h⟩ := step_next s
    rcases h.dispatched framed hmode free hq (by simp [State.ctrlTurn, ha]) with
      ⟨j, read, runs⟩ | ⟨p, lacks, received, e⟩
    · obtain ⟨rfl, -, rfl⟩ := decode_prefix_of_encode wf split read
      rw [s.turnTaken_eq, State.turnTaken_agenda_cons ha] at runs
      exact ⟨t, runs, State.after_succ 0 ht⟩
    · have some_left : todo ≠ [] := by
        rintro rfl
        have whole := decodeOfEncodedCommand i [] wf
        rw [← split, List.append_nil, List.append_nil, lacks] at whole
        cases whole
      have phase : t.phase = .args p := by simp [e]
      obtain ⟨u, runs, hu⟩ := ih t (h.framed framed) (h.cfg_eq ▸ hmode) (by simp [phase]) some_left
        (by rw [phase, received, split]) (by simp [e])
        (by simp [e, State.turnTaken_agenda_cons ha])
      rw [e] at runs
      exact ⟨u, runs, (State.after_succ _ ht).trans hu⟩

/-- Every command has its opcode byte (R49). -/
theorem encode_ne_nil (i : Instr) : encode i ≠ [] := by
  cases i <;> exact List.cons_ne_nil _ _

/-- Settles O25: at IDLE the bytes not yet taken are all of the command's. -/
theorem commandBytesExecute : Obligations.CommandBytesExecute := by
  unfold Obligations.CommandBytesExecute
  intro i s rest later wf hmode idle hq ha
  obtain ⟨t, runs, ht⟩ := after_remaining_bytes wf rest later (encode i) s
    (State.framed_of_idle_or_hold (.inl idle)) hmode (by simp [idle]) (encode_ne_nil i)
    (by simp [idle, Phase.bytes]) hq ha
  rw [setPhase_idle ((s.setAgenda later).setRxq rest) idle] at runs
  exact ⟨t, runs, ht⟩

/-! ## When a byte is taken (R69) -/

/-- The dispatching turn takes one byte; any other move keeps the bytes in `RXQ` in order, with what
arrives behind them, and a turn keeps them alone; a reset drops them. -/
theorem StepCase.rxq_cases {s t : State} (h : StepCase s t) :
    (s.ctrlTurn = true ∧ s.dispatchEnabled = true ∧ ∃ b, s.rxq = b :: t.rxq) ∨
    (¬ (s.ctrlTurn = true ∧ s.dispatchEnabled = true) ∧
      ((s.rxq <+: t.rxq ∧ (s.ctrlTurn = true → t.rxq = s.rxq)) ∨
        s.agenda.head? = some .rst)) := by
  have event : ∀ {m rest}, s.agenda = m :: rest → m ≠ .ctrl →
      ¬ (s.ctrlTurn = true ∧ s.dispatchEnabled = true) := fun hm other turn => by
    simp [State.ctrlTurn_of_event hm other] at turn
  have kept : t.rxq = s.rxq → s.rxq <+: t.rxq ∧ (s.ctrlTurn = true → t.rxq = s.rxq) :=
    fun e => ⟨by rw [e], fun _ => e⟩
  have takes : s.cfg.mode = .cmd → s.phase ≠ .hold → ∀ {b q}, s.rxq = b :: q →
      s.dispatchEnabled = true := fun hmode free b q hq =>
    s.dispatchEnabled_iff.mpr ⟨hmode, free, by rw [hq]; exact List.cons_ne_nil b q⟩
  cases h with
  | arrives b rest hm ht =>
    refine .inr ⟨event hm Move.noConfusion, .inl ⟨?_, fun turn => ?_⟩⟩
    · rw [ht]
      rcases (s.setAgenda rest).receive_cases b with ⟨-, e⟩ | ⟨-, -, e⟩ | ⟨-, -, e⟩ <;> simp [e]
    · simp [State.ctrlTurn_of_event hm Move.noConfusion] at turn
  | pins _ _ _ hm ht => exact .inr ⟨event hm Move.noConfusion, .inl (kept (by simp [ht]))⟩
  | tick _ hm _ ht => exact .inr ⟨event hm Move.noConfusion, .inl (kept (by simp [ht]))⟩
  | reset _ hm _ => exact .inr ⟨event hm Move.noConfusion, .inr (by simp [hm])⟩
  | fall _ hd _ ht =>
    have blocked := s.dispatchEnabled_of_hold (s.fallDue_iff.mp hd).1
    exact .inr ⟨by simp [blocked], .inl (kept (by simp [ht]))⟩
  | sample _ auto _ ht =>
    have blocked : ¬ s.dispatchEnabled = true := by simp [s.dispatchEnabled_iff, auto]
    exact .inr ⟨fun turn => blocked turn.2, .inl (kept (by simp [ht]))⟩
  | opens hc hmode hp b q hq _ _ ht =>
    exact .inl ⟨hc, takes hmode (by simp [hp]) hq, b, by simp [hq, ht]⟩
  | collects hc hmode p hp b q hq _ ht =>
    exact .inl ⟨hc, takes hmode (by simp [hp]) hq, b, by simp [hq, ht]⟩
  | executes hc hmode b q hq i hsrc hx =>
    have free : s.phase ≠ .hold := by
      rcases hsrc with ⟨hp, -⟩ | ⟨hp, -⟩ | ⟨p, hp, -⟩ <;> simp [hp]
    exact .inl ⟨hc, takes hmode free hq, b, by rw [hx.frame.rxq, hq]; rfl⟩
  | waits _ hd _ _ ht => exact .inr ⟨by simp [hd], .inl (kept (by simp [ht]))⟩

/-- Settles O26: `StepCase.rxq_cases`; a waiting turn has no step enabled; and no dispatch is
enabled while a pulse is held. -/
theorem byteTakenExactlyWhenEnabled : Obligations.ByteTakenExactlyWhenEnabled := by
  unfold Obligations.ByteTakenExactlyWhenEnabled
  refine ⟨fun s t hc h => ?_, fun s hc hmode free empty => ?_, fun s t hp hr h => ?_⟩
  · rw [← s.dispatchEnabled_iff]
    rcases (step_cases h).rxq_cases with ⟨-, enabled, taken⟩ | ⟨idle, ⟨-, kept⟩ | reset⟩
    · exact iff_of_true taken enabled
    · refine iff_of_false ?_ fun enabled => idle ⟨hc, enabled⟩
      rintro ⟨b, taken⟩
      rw [kept hc] at taken
      exact List.cons_ne_self b s.rxq taken.symm
    · cases ha : s.agenda with
      | nil => simp [ha] at reset
      | cons m rest =>
        obtain rfl : m = .rst := by simpa [ha] using reset
        simp [State.ctrlTurn_of_event ha Move.noConfusion] at hc
  · have dispatch : s.turnTaken.dispatchEnabled = false :=
      Bool.eq_false_iff.mpr fun enabled => (s.turnTaken.dispatchEnabled_iff.mp enabled).2.2 empty
    have sample : s.turnTaken.sampleEnabled = false :=
      Bool.eq_false_iff.mpr fun enabled => by
        simp [s.turnTaken.sampleEnabled_iff, hmode] at enabled
    exact (step_turn s hc).trans
      (controllerStep_waits dispatch (State.fallDue_of_not_hold free) sample)
  · rcases (step_cases h).rxq_cases with ⟨-, enabled, -⟩ | ⟨-, ⟨kept, -⟩ | reset⟩
    · simp [s.dispatchEnabled_of_hold hp] at enabled
    · exact kept
    · exact absurd reset hr

/-! ## A partial command waits (R72, R108) -/

/-- With a partial command, no byte in `RXQ` and none arriving, a move that is no reset changes
nothing but time, the pins and the moves to come. -/
theorem StepCase.of_starved {s t : State} {p : PartialCommand} (h : StepCase s t)
    (hmode : s.cfg.mode = .cmd) (hp : s.phase = .args p) (hq : s.rxq = []) (hr : s.noReset)
    (quiet : ∀ b, Move.rx b ∉ s.agenda) :
    t = { s with now := t.now, pinLevel := t.pinLevel, pinDriven := t.pinDriven,
                 agenda := t.agenda } := by
  cases h with
  | arrives b _ hm _ => exact absurd (by simp [hm]) (quiet b)
  | pins _ _ _ _ ht => rw [ht]; rfl
  | tick _ _ _ ht => rw [ht]; rfl
  | reset _ hm _ => exact absurd (by simp [hm]) hr
  | fall _ hd _ _ => simp [s.fallDue_iff, hp] at hd
  | sample _ auto _ _ => simp [hmode] at auto
  | opens _ _ _ _ _ hq' _ _ _ => simp [hq] at hq'
  | collects _ _ _ _ _ _ hq' _ _ => simp [hq] at hq'
  | executes _ _ _ _ hq' _ _ _ => simp [hq] at hq'
  | waits _ _ _ _ ht => rw [ht]; rfl

/-- `u` is `s` with more time passed and other pins: the partial command waits. -/
def SinceThen (s u : State) : Prop :=
  u = { s with now := u.now, pinLevel := u.pinLevel, pinDriven := u.pinDriven,
               agenda := u.agenda } ∧
    u.noReset ∧ ∀ b, Move.rx b ∉ u.agenda

theorem SinceThen.step {s u v : State} {p : PartialCommand} (since : SinceThen s u)
    (hmode : s.cfg.mode = .cmd) (hp : s.phase = .args p) (hq : s.rxq = []) (h : StepCase u v) :
    SinceThen s v := by
  obtain ⟨same, hr, quiet⟩ := since
  have next := h.of_starved (p := p) (by rw [same]; exact hmode) (by rw [same]; exact hp)
    (by rw [same]; exact hq) hr quiet
  rw [same] at next
  exact ⟨next, h.noReset hr, fun b => h.not_mem_agenda Move.noConfusion (quiet b)⟩

/-- Settles O27: `SinceThen.step` along a run. -/
theorem partialCommandWaits : Obligations.PartialCommandWaits := by
  unfold Obligations.PartialCommandWaits
  intro k s t p hmode hp hq hr quiet h
  have since : SinceThen s t := State.after_keeps (SinceThen s)
    (fun _ _ since huv => since.step hmode hp hq (step_cases huv)) k s t ⟨rfl, hr, quiet⟩ h
  rw [since.1]
  exact ⟨hp, hq, rfl, rfl, rfl, rfl⟩

/-! ## Which bytes write `DUR` and send (R18, R22) -/

/-- Only opcode 10 selects the duration command, with its two argument bytes (R73). -/
theorem instrOf_eq_setPulseDuration {op a0 a1 : Byte} {d : Half}
    (h : instrOf op a0 a1 = .setPulseDuration d) : op = 10 ∧ d = leHalf a0 a1 := by
  obtain ⟨args, bytes⟩ := encode_instrOf_cons op a0 a1
  rw [h] at bytes
  obtain rfl : 10 = op := (List.cons.inj bytes).1
  rw [instrOf_ten] at h
  exact ⟨rfl, (Instr.setPulseDuration.inj h).symm⟩

/-- Only opcode 20 selects the command that answers (R73). -/
theorem instrOf_eq_getButtonMask {op a0 a1 : Byte} (h : instrOf op a0 a1 = .getButtonMask) :
    op = 20 := by
  obtain ⟨args, bytes⟩ := encode_instrOf_cons op a0 a1
  rw [h] at bytes
  exact (List.cons.inj bytes).1.symm

/-- A command keeps `DUR`, or is opcode 10 and writes its operand (R18, R83). -/
theorem ExecCase.dur_cases {i : Instr} {s t : State} (h : ExecCase i s t) :
    t.dur = s.dur ∨ ∃ d, i = .setPulseDuration d ∧ t.dur = d := by
  cases h with
  | duration d hi ht => exact .inr ⟨d, hi, by simp [ht]⟩
  | pulse _ _ ht => left; simp [ht]
  | raise _ _ ht => left; simp [ht]
  | lower _ _ ht => left; simp [ht]
  | answer _ ht => left; simp [ht]
  | nothing _ ht => left; simp [ht]

/-- Settles O38: a reset, or a command's last byte; the command is opcode 10, which takes two bytes,
so the byte is its second. -/
theorem durWriters : Obligations.DurWriters := by
  unfold Obligations.DurWriters
  intro s t framed h changed
  cases step_cases h with
  | arrives _ _ _ ht => exact absurd (by simp [ht]) changed
  | pins _ _ _ _ ht => exact absurd (by simp [ht]) changed
  | tick _ _ _ ht => exact absurd (by simp [ht]) changed
  | reset _ hm ht => exact .inl ⟨by simp [hm], by simp [ht, Config.durReset]⟩
  | fall _ _ _ ht => exact absurd (by simp [ht]) changed
  | sample _ _ _ ht => exact absurd (by simp [ht]) changed
  | opens _ _ _ _ _ _ _ _ ht => exact absurd (by simp [ht]) changed
  | collects _ _ _ _ _ _ _ _ ht => exact absurd (by simp [ht]) changed
  | waits _ _ _ _ ht => exact absurd (by simp [ht]) changed
  | executes hc hmode b q hq i hsrc hx =>
    obtain ⟨d, rfl, written⟩ := hx.dur_cases.resolve_left changed
    rcases hsrc with ⟨-, -, hi⟩ | ⟨-, takes_none, hi⟩ | ⟨p, hp, last, hi⟩
    · cases hi
    · obtain ⟨rfl, -⟩ := instrOf_eq_setPulseDuration hi.symm
      cases takes_none
    · obtain ⟨ten, value⟩ := instrOf_eq_setPulseDuration hi.symm
      obtain ⟨known, -⟩ := framed p hp
      rw [ten, argLen_ten] at known
      have two : p.need = 2 := (Option.some.inj known).symm
      have one_here : p.argc = 1 := by omega
      have enabled : s.dispatchEnabled = true :=
        s.dispatchEnabled_iff.mpr ⟨hmode, by simp [hp], by simp [hq]⟩
      refine .inr ⟨hc, enabled, p, b, q, hp, hq, ten, last, ?_⟩
      rw [written, value]
      simp [PartialCommand.receive, one_here]

/-- Settles O39: opcode 20 takes no argument, so its byte is taken at IDLE; and a fall adds its log
line in AUTO mode with `AUTO_LOG`. -/
theorem transmitSources : Obligations.TransmitSources := by
  unfold Obligations.TransmitSources
  intro s t framed h
  cases step_cases h with
  | arrives _ _ _ ht => left; simp [ht]
  | pins _ _ _ _ ht => left; simp [ht]
  | tick _ _ _ ht => left; simp [ht]
  | reset _ _ ht => left; simp [ht]
  | sample _ _ _ ht => left; simp [ht]
  | opens _ _ _ _ _ _ _ _ ht => left; simp [ht]
  | collects _ _ _ _ _ _ _ _ ht => left; simp [ht]
  | waits _ _ _ _ ht => left; simp [ht]
  | fall a hd _ ht =>
    obtain ⟨hold, due⟩ := s.fallDue_iff.mp hd
    obtain ⟨line, n, e, quiet⟩ := (s.setAgenda a).fallStep_cases
    by_cases logs : s.cfg.mode = .auto ∧ s.cfg.autoLog = true
    · exact .inr (.inr ⟨logs.1, logs.2, hold, due, line, by rw [ht, e]; rfl⟩)
    · left
      rw [ht, e, (quiet logs).1]
      exact List.append_nil _
  | executes hc hmode b q hq i hsrc hx =>
    by_cases is20 : i = .getButtonMask
    · subst is20
      obtain ⟨answer, -⟩ := getButtonMask_answer hx.exec_eq
      rcases hsrc with ⟨-, -, hi⟩ | ⟨hp, -, hi⟩ | ⟨p, hp, last, hi⟩
      · cases hi
      · have twenty := instrOf_eq_getButtonMask hi.symm
        have enabled : s.dispatchEnabled = true :=
          s.dispatchEnabled_iff.mpr ⟨hmode, by simp [hp], by simp [hq]⟩
        exact .inr (.inl ⟨enabled, hc, hp, by simp [hq, twenty], _, answer⟩)
      · obtain ⟨known, fewer⟩ := framed p hp
        rw [instrOf_eq_getButtonMask hi.symm, argLen_twenty] at known
        have none_taken : p.need = 0 := (Option.some.inj known).symm
        omega
    · exact .inl (hx.txLog_eq is20)

/-! ## No filler byte is harmless (R126) -/

/-- A CMD block right after power-up that has received the opcode `op` and has `b` in `RXQ`, with
the controller's turn next. -/
def fillerState (op b : Byte) : State :=
  ((State.powerUp Config.reference 0xFF 0xFF [.ctrl]).setRxq [b]).setPhase (.args (.start op 1))

theorem fillerState_framed {op : Byte} (takes_one : argLen op = some 1) (b : Byte) :
    (fillerState op b).Framed := by
  intro p hp
  cases hp
  exact ⟨takes_one, Nat.one_pos⟩

theorem fillerState_inv {op : Byte} (takes_one : argLen op = some 1) (b : Byte) :
    (fillerState op b).Inv where
  build := rfl
  framed := fillerState_framed takes_one b
  holding := fun hold => by cases hold
  queue := (by decide : 1 ≤ 16)
  timer := ⟨fun _ => rfl, fun valid => by cases valid⟩
  pull := rfl

/-- The turn that takes the filler byte completes the command (R71). -/
theorem step_fillerState {op : Byte} (takes_one : argLen op = some 1) (b : Byte) :
    step (fillerState op b) = exec (instrOf op b 0)
      { (fillerState op b).turnTaken with rxq := [], phase := .idle } :=
  stepRunsDecodedCommand _ b [] _ (fillerState_framed takes_one b) rfl Phase.noConfusion rfl rfl
    (decode_cons_of_argLen_one takes_one b [])

/-- Settles O29: the byte 0 completes `set_line_high`, which raises line 0; any other byte completes
`set_mask_high`, which raises its own lines. -/
theorem noFillerByteIsHarmless : Obligations.NoFillerByteIsHarmless := by
  unfold Obligations.NoFillerByteIsHarmless
  intro b
  by_cases zero : b = 0
  · subst zero
    have takes_one : argLen 0x0F = some 1 := by decide
    exact ⟨0x0F, fillerState 0x0F 0, _, takes_one, fillerState_inv takes_one 0, rfl, rfl, rfl, rfl,
      (step_fillerState takes_one 0).trans (exec_setLineHigh_named (by decide) _), rfl, by decide⟩
  · have takes_one : argLen 0x0D = some 1 := by decide
    refine ⟨0x0D, fillerState 0x0D b, _, takes_one, fillerState_inv takes_one b, rfl, rfl, rfl, rfl,
      (step_fillerState takes_one b).trans (exec_setMaskHigh b _), rfl, ?_⟩
    have raised : (0 : Byte) ||| b = b := BitVec.zero_or
    exact fun same => zero (raised.symm.trans same)

end Sys2Proof.Machine
end

section
/-! SUPPORT. The debounce and re-arm state machine (45_debounce_fsm.md): the rows of its table, when
it fires, that a held press fires once, and when it re-arms. -/

namespace Sys2Proof.Machine

/-! ## The rows of the table (R97 to R102) -/

namespace State

variable {s : State}

/-- ARMED with a press: fire (R97). -/
theorem sampleStep_armed_pressed (a : s.arm = .armed) (m : s.inputMask ≠ 0) :
    s.sampleStep = s.drawn.fire := by
  simp only [sampleStep, sampleInputs, drawn_arm, a]
  exact if_pos m

/-- ARMED with no press (R98). -/
theorem sampleStep_armed_released (a : s.arm = .armed) (m : s.inputMask = 0) :
    s.sampleStep = s.drawn := by
  simp only [sampleStep, sampleInputs, drawn_arm, a]
  exact if_neg (not_not_intro m)

theorem sampleStep_disarmed (a : s.arm = .disarmed) :
    s.sampleStep = s.drawn.watchRelease s.inputMask := by
  simp only [sampleStep, sampleInputs, drawn_arm, a]

/-- DISARMED with a press: the release is not stable, and its timer is cleared (R99). -/
theorem sampleStep_disarmed_pressed (a : s.arm = .disarmed) (m : s.inputMask ≠ 0) :
    s.sampleStep = s.drawn.clearTimer := by
  rw [sampleStep_disarmed a, watchRelease, if_pos m]

/-- DISARMED with no press and the timer unset: the timer starts (R100). -/
theorem sampleStep_release_starts (a : s.arm = .disarmed) (m : s.inputMask = 0)
    (v : s.relValid = false) : s.sampleStep = s.drawn.startTimer := by
  rw [sampleStep_disarmed a, watchRelease, if_neg (not_not_intro m), drawn_relValid, if_pos v]

/-- DISARMED with no press and the timer ripe: re-armed (R101). -/
theorem sampleStep_rearms (a : s.arm = .disarmed) (m : s.inputMask = 0) (v : s.relValid = true)
    (ripe : s.relStart + s.cfg.relInterval ≤ s.now) :
    s.sampleStep = (s.drawn.setArm .armed).clearTimer := by
  rw [sampleStep_disarmed a, watchRelease, if_neg (not_not_intro m), drawn_relValid,
    if_neg (by simp [v]), if_pos (s.drawn.timerRipe_iff.mpr ripe)]

/-- DISARMED with no press and the timer not ripe (R101). -/
theorem sampleStep_keeps_waiting (a : s.arm = .disarmed) (m : s.inputMask = 0)
    (v : s.relValid = true) (early : ¬ s.relStart + s.cfg.relInterval ≤ s.now) :
    s.sampleStep = s.drawn := by
  rw [sampleStep_disarmed a, watchRelease, if_neg (not_not_intro m), drawn_relValid,
    if_neg (by simp [v]), if_neg (mt s.drawn.timerRipe_iff.mp early)]

end State

/-- Settles O47, one row of the table a case. -/
theorem sampleStepTable : Obligations.SampleStepTable := by
  unfold Obligations.SampleStepTable
  intro s hmode hp hc
  rw [step_turn s hc, controllerStep_sample (s := s.turnTaken) hmode hp]
  refine ⟨fun a m => ?_, fun a m => ?_, fun a m => ?_, fun a m v => ?_, fun a m v ripe => ?_,
    fun a m v early => ?_⟩
  · refine ⟨_, s.turnTaken.drawn.holdTicks_admitted s.cfg.autoPulseMs, ?_⟩
    rw [State.sampleStep_armed_pressed (s := s.turnTaken) a m, State.fire_eq]
    rfl
  · rw [State.sampleStep_armed_released (s := s.turnTaken) a m]
    rfl
  · rw [State.sampleStep_disarmed_pressed (s := s.turnTaken) a m]
    rfl
  · rw [State.sampleStep_release_starts (s := s.turnTaken) a m v]
    rfl
  · rw [State.sampleStep_rearms (s := s.turnTaken) a m v (by simp; omega)]
    rfl
  · rw [State.sampleStep_keeps_waiting (s := s.turnTaken) a m v (by simp; omega)]
    rfl

/-! ## Moves in AUTO mode -/

/-- At IDLE in AUTO mode a turn samples, a reset resets, and any other move leaves the block as it
is but for time, the pins and the moves to come (R75, R96). -/
theorem StepCase.of_idle_auto {s t : State} (h : StepCase s t) (hmode : s.cfg.mode = .auto)
    (hp : s.phase = .idle) :
    (s.ctrlTurn = true ∧ t = s.turnTaken.sampleStep) ∨
    (s.ctrlTurn = false ∧ s.agenda.head? = some .rst) ∨
    (s.ctrlTurn = false ∧
      t = { s with now := t.now, pinLevel := t.pinLevel, pinDriven := t.pinDriven,
                   agenda := t.agenda }) := by
  have event : ∀ {m rest}, s.agenda = m :: rest → m ≠ .ctrl → s.ctrlTurn = false :=
    State.ctrlTurn_of_event
  cases h with
  | arrives b rest hm ht =>
    refine .inr (.inr ⟨event hm Move.noConfusion, ?_⟩)
    rw [ht, State.receive_auto (s := s.setAgenda rest) hmode]
    rfl
  | pins _ _ _ hm ht => exact .inr (.inr ⟨event hm Move.noConfusion, by rw [ht]; rfl⟩)
  | tick _ hm _ ht => exact .inr (.inr ⟨event hm Move.noConfusion, by rw [ht]; rfl⟩)
  | reset _ hm _ => exact .inr (.inl ⟨event hm Move.noConfusion, by simp [hm]⟩)
  | fall _ hd _ _ => simp [s.fallDue_iff, hp] at hd
  | sample hc _ _ ht => exact .inl ⟨hc, ht⟩
  | opens _ cmd _ _ _ _ _ _ _ => simp [hmode] at cmd
  | collects _ cmd _ _ _ _ _ _ _ => simp [hmode] at cmd
  | executes _ cmd _ _ _ _ _ _ => simp [hmode] at cmd
  | waits _ _ _ hs _ => simp [s.sampleEnabled_iff.mpr ⟨hmode, hp⟩] at hs

/-- A fire: the controller's turn samples a press while ARMED (R97). -/
def State.Fires (s : State) : Prop :=
  s.ctrlTurn = true ∧ s.phase = .idle ∧ s.arm = .armed ∧ s.inputMask ≠ 0

theorem State.not_fires_of_no_turn {s : State} (h : s.ctrlTurn = false) : ¬ s.Fires :=
  fun fires => by simp [fires.1] at h

/-- A move in AUTO mode fires, or leaves ARMED and IDLE as they are (R105). -/
theorem StepCase.fires_or_not {s t : State} (h : StepCase s t) (hmode : s.cfg.mode = .auto)
    (hargs : ∀ p, s.phase ≠ .args p) :
    (s.Fires ∧ t = s.turnTaken.drawn.fire) ∨
    (¬ s.Fires ∧ (s.arm = .armed → t.arm = .armed) ∧ (s.phase = .idle → t.phase = .idle)) := by
  by_cases hr : s.agenda.head? = some .rst
  · obtain ⟨rest, hm⟩ := List.head?_eq_some_iff.mp hr
    rw [h.of_rst hr]
    exact .inr ⟨State.not_fires_of_no_turn (State.ctrlTurn_of_event hm Move.noConfusion),
      fun _ => rfl, fun _ => rfl⟩
  cases hp : s.phase with
  | args p => exact absurd hp (hargs p)
  | hold =>
    refine .inr ⟨fun fires => ?_, fun armed => ?_, fun idle => by cases idle⟩
    · obtain ⟨-, idle, -⟩ := fires
      simp [hp] at idle
    · rcases h.of_hold hp hr with ⟨-, -, a, e⟩ | frame
      · simp [e, armed]
      · rw [frame]
        exact armed
  | idle =>
    rcases h.of_idle_auto hmode hp with ⟨hc, e⟩ | ⟨-, reset⟩ | ⟨no_turn, frame⟩
    · rcases s.turnTaken.sampleStep_fires_or_quiet with ⟨armed, pressed, e'⟩ | ⟨quiet, armed, e'⟩
      · exact .inl ⟨⟨hc, hp, armed, pressed⟩, e.trans e'⟩
      · refine .inr ⟨fun ⟨_, _, both⟩ => quiet both, fun a => by rw [e]; exact armed a, fun _ => ?_⟩
        rw [e, e']
        exact hp
    · exact absurd reset hr
    · rw [frame]
      exact .inr ⟨State.not_fires_of_no_turn no_turn, id, fun _ => hp⟩

/-- Settles O48: the two ways of `StepCase.fires_or_not`. -/
theorem fireExactlyWhenArmedAndPressed : Obligations.FireExactlyWhenArmedAndPressed := by
  unfold Obligations.FireExactlyWhenArmedAndPressed
  intro s t hmode hargs h
  rcases (step_cases h).fires_or_not hmode hargs with ⟨fires, e⟩ | ⟨none, armed, idle⟩
  · obtain ⟨-, idle, armed, -⟩ := id fires
    exact ⟨iff_of_true ⟨armed, by simp [e]⟩ fires, iff_of_true ⟨idle, by simp [e]⟩ fires⟩
  · refine ⟨iff_of_false ?_ none, iff_of_false ?_ none⟩
    · rintro ⟨a, disarmed⟩
      simp [armed a] at disarmed
    · rintro ⟨i, hold⟩
      simp [idle i] at hold

/-! ## A held press (R105) -/

/-- DISARMED with a press and no reset, a move is the fall of a held pulse, or leaves the outputs,
the hold, ARM and the pins as they are (R99, R105). -/
theorem StepCase.of_pressed {s t : State} (h : StepCase s t) (hmode : s.cfg.mode = .auto)
    (disarmed : s.arm = .disarmed) (pressed : s.inputMask ≠ 0) (hr : s.noReset)
    (still : ∀ l d, Move.pins l d ∉ s.agenda) :
    (s.phase = .hold ∧ ∃ a, t = (s.setAgenda a).fallStep) ∨
    t = { s with now := t.now, rxq := t.rxq, rxOvf := t.rxOvf, relValid := t.relValid,
                 agenda := t.agenda, draws := t.draws } := by
  cases h with
  | arrives _ _ _ ht => right; rw [ht, State.receive_frame]; rfl
  | pins l d _ hm _ => exact absurd (by simp [hm]) (still l d)
  | tick _ _ _ ht => right; rw [ht]; rfl
  | reset _ hm _ => exact absurd (by simp [hm]) hr
  | fall a hd _ ht => exact .inl ⟨(s.fallDue_iff.mp hd).1, a, ht⟩
  | sample _ _ _ ht =>
    right
    rw [ht, State.sampleStep_disarmed_pressed (s := s.turnTaken) disarmed pressed]
    rfl
  | opens _ cmd _ _ _ _ _ _ _ => simp [hmode] at cmd
  | collects _ cmd _ _ _ _ _ _ _ => simp [hmode] at cmd
  | executes _ cmd _ _ _ _ _ _ => simp [hmode] at cmd
  | waits _ _ _ _ ht => right; rw [ht]; rfl

/-- `u` comes after `s` while the press that disarmed `s` is held: DISARMED still, under the same
pins, with the pulse of `s` held as it was, or fallen. -/
structure StillPressed (s u : State) : Prop where
  cfg : u.cfg = s.cfg
  pinLevel : u.pinLevel = s.pinLevel
  pinDriven : u.pinDriven = s.pinDriven
  disarmed : u.arm = .disarmed
  noReset : u.noReset
  still : ∀ l d, Move.pins l d ∉ u.agenda
  output : (u.outTrace = s.outTrace ∧ u.phase = s.phase ∧ u.out = s.out ∧ u.hmask = s.hmask) ∨
    (s.phase = .hold ∧ u.phase = .idle ∧
      ∃ time, u.outTrace = s.outTrace ++ [(time, s.out &&& ~~~ s.hmask)])

theorem StillPressed.step {s u v : State} (now : StillPressed s u) (hmode : s.cfg.mode = .auto)
    (steady : s.inputsSteady) (pressed : s.inputMask ≠ 0) (h : StepCase u v) :
    StillPressed s v := by
  have mask : u.inputMask = s.inputMask :=
    State.inputMask_steady s u steady now.cfg now.pinLevel now.pinDriven
  have noReset := h.noReset now.noReset
  have still : ∀ l d, Move.pins l d ∉ v.agenda := fun l d =>
    h.not_mem_agenda Move.noConfusion (now.still l d)
  rcases h.of_pressed (now.cfg ▸ hmode) now.disarmed (mask ▸ pressed) now.noReset now.still
    with ⟨hold, a, e⟩ | frame
  · refine ⟨by simp [e, now.cfg], by simp [e, now.pinLevel], by simp [e, now.pinDriven],
      by simp [e, now.disarmed], noReset, still, ?_⟩
    rcases now.output with ⟨trace, phase, out, hmask⟩ | ⟨-, idle, -⟩
    · exact .inr ⟨phase.symm.trans hold, by simp [e], u.now, by simp [e, trace, out, hmask]⟩
    · simp [hold] at idle
  · rw [frame] at noReset still ⊢
    exact ⟨now.cfg, now.pinLevel, now.pinDriven, now.disarmed, noReset, still, now.output⟩

/-- Settles O49: `StillPressed.step` along a run. -/
theorem heldPressFiresOnce : Obligations.HeldPressFiresOnce := by
  unfold Obligations.HeldPressFiresOnce
  intro k s t hmode _ disarmed steady pressed hr still h
  have start : StillPressed s s :=
    ⟨rfl, rfl, rfl, disarmed, hr, still, .inl ⟨rfl, rfl, rfl, rfl⟩⟩
  have after : StillPressed s t := State.after_keeps (StillPressed s)
    (fun _ _ now huv => now.step hmode steady pressed (step_cases huv)) k s t start h
  exact ⟨after.disarmed, after.output.imp And.left fun ⟨hold, _, trace⟩ => ⟨hold, trace⟩⟩

/-! ## No re-arm before the release interval (R106) -/

/-- `u` comes after a fire whose pulse ends at `deadline`: the interval after the deadline is over,
or the pulse is held still, or the release timer, if it runs, was started at the deadline or
later. -/
def Releasing (deadline : Nat) (u : State) : Prop :=
  deadline + u.cfg.relInterval ≤ u.now ∨
  (u.phase = .hold ∧ u.now ≤ deadline ∧ u.deadline = deadline ∧ u.arm = .disarmed ∧
    u.relValid = false) ∨
  (u.phase = .idle ∧ deadline ≤ u.now ∧ u.arm = .disarmed ∧
    (u.relValid = true → deadline ≤ u.relStart))

/-- A sample re-arms only where the timer, started at the deadline or later, is ripe: the interval
after the deadline is over then (R100, R101). -/
theorem Releasing.sample {deadline : Nat} {s : State} (idle : s.phase = .idle)
    (past : deadline ≤ s.now) (disarmed : s.arm = .disarmed)
    (timer : s.relValid = true → deadline ≤ s.relStart) : Releasing deadline s.sampleStep := by
  rcases s.sampleStep_cases with ⟨armed, -, -⟩ | ⟨armed, -, -⟩ | ⟨-, -, e⟩ | ⟨-, -, -, e⟩ |
    ⟨-, -, valid, ripe, -⟩ | ⟨-, -, -, -, e⟩
  · simp [disarmed] at armed
  · simp [disarmed] at armed
  · rw [e]
    exact .inr (.inr ⟨idle, past, disarmed, fun valid => by simp at valid⟩)
  · rw [e]
    exact .inr (.inr ⟨idle, past, disarmed, fun _ => past⟩)
  · left
    rw [State.sampleStep_cfg, State.sampleStep_now]
    have := timer valid
    omega
  · rw [e]
    exact .inr (.inr ⟨idle, past, disarmed, timer⟩)

theorem Releasing.step {deadline : Nat} {u v : State} (now : Releasing deadline u)
    (hmode : u.cfg.mode = .auto) (hr : u.noReset) (h : StepCase u v) : Releasing deadline v := by
  have no_rst : u.agenda.head? ≠ some .rst := fun head => hr (List.mem_of_mem_head? head)
  rcases now with expired | ⟨hold, before, end_time, disarmed, unset⟩ |
    ⟨idle, past, disarmed, timer⟩
  · left
    rw [h.cfg_eq]
    exact expired.trans h.now_le
  · have not_past := h.now_le_deadline hold (end_time ▸ before)
    rcases h.of_hold hold no_rst with ⟨hd, -, a, e⟩ | frame
    · have due := (u.fallDue_iff.mp hd).2
      rw [e]
      refine .inr (.inr ⟨by simp, ?_, by simp [disarmed], by simp [unset]⟩)
      simpa [end_time] using due
    · rw [end_time] at not_past
      rw [frame]
      exact .inr (.inl ⟨hold, not_past, end_time, disarmed, unset⟩)
  · rcases h.of_idle_auto hmode idle with ⟨-, e⟩ | ⟨-, reset⟩ | ⟨-, frame⟩
    · rw [e]
      exact Releasing.sample (s := u.turnTaken) idle past disarmed timer
    · exact absurd reset no_rst
    · have later := h.now_le
      rw [frame]
      exact .inr (.inr ⟨idle, past.trans later, disarmed, timer⟩)

/-- Settles O50: `Releasing.step` along a run; only where the interval is over can the block be
ARMED. -/
theorem noRearmBeforeReleaseInterval : Obligations.NoRearmBeforeReleaseInterval := by
  unfold Obligations.NoRearmBeforeReleaseInterval
  intro k s t hmode hold before disarmed unset hr h armed
  obtain ⟨cfg, -, after⟩ := State.after_keeps
    (fun u => u.cfg = s.cfg ∧ u.noReset ∧ Releasing s.deadline u)
    (fun u v ⟨cfg, hru, now⟩ huv =>
      ⟨(step_cases huv).cfg_eq.trans cfg, (step_cases huv).noReset hru,
        now.step (cfg ▸ hmode) hru (step_cases huv)⟩)
    k s t ⟨rfl, hr, .inr (.inl ⟨hold, before, rfl, disarmed, unset⟩)⟩ h
  rcases after with expired | ⟨-, -, -, still, -⟩ | ⟨-, -, still, -⟩
  · rwa [cfg] at expired
  · simp [armed] at still
  · simp [armed] at still

end Sys2Proof.Machine
end

section
/-! SUPPORT. What holds of every state a run reaches: the block's invariant part by part, and what
each mode keeps (10_state.md, 41_dispatcher.md section 4, 42_pulse_generator.md section 3,
45_debounce_fsm.md section 1). -/

namespace Sys2Proof.Machine

/-! ## A hold is not past its deadline and its lines are high (R78, R86) -/

/-- Of lines just raised all are high. -/
theorem and_or_self_mask (m v : Byte) : m &&& (v ||| m) = m := by
  ext i
  simp only [BitVec.getElem_and, BitVec.getElem_or]
  cases m[i] <;> simp

theorem State.holding_of_not_hold {t : State} (h : t.phase ≠ .hold) : t.Holding :=
  fun hold => absurd hold h

theorem State.pulseStart_holding (s : State) (m : Byte) (d : Half) : (s.pulseStart m d).Holding :=
  fun _ => ⟨Nat.le_add_right _ _, and_or_self_mask m s.out⟩

theorem State.fire_holding (s : State) : s.fire.Holding := State.pulseStart_holding _ _ _

/-- A command ends in a hold only where it starts a pulse (R81). -/
theorem ExecCase.holding {i : Instr} {s t : State} (h : ExecCase i s t) (free : s.phase ≠ .hold) :
    t.Holding := by
  cases h with
  | pulse m _ ht => rw [ht]; exact s.pulseStart_holding m s.dur
  | duration _ _ ht => exact State.holding_of_not_hold (by rw [ht]; exact free)
  | raise _ _ ht => exact State.holding_of_not_hold (by rw [ht]; exact free)
  | lower _ _ ht => exact State.holding_of_not_hold (by rw [ht]; exact free)
  | answer _ ht => exact State.holding_of_not_hold (by rw [ht]; exact free)
  | nothing _ ht => exact State.holding_of_not_hold (by rw [ht]; exact free)

/-- A hold starts with a pulse of the AUTO sample or of a command, and in no other way (R81). -/
theorem StepCase.holding_of_free {s t : State} (h : StepCase s t) (free : s.phase ≠ .hold) :
    t.Holding := by
  cases h with
  | arrives _ _ _ ht => exact State.holding_of_not_hold (by simpa [ht] using free)
  | pins _ _ _ _ ht => exact State.holding_of_not_hold (by simpa [ht] using free)
  | tick _ _ _ ht => exact State.holding_of_not_hold (by simpa [ht] using free)
  | reset _ _ ht => exact State.holding_of_not_hold (by simp [ht])
  | fall _ _ _ ht => exact State.holding_of_not_hold (by simp [ht])
  | sample _ _ _ ht =>
    rcases s.turnTaken.sampleStep_fires_or_quiet with ⟨-, -, e⟩ | ⟨-, -, e⟩
    · rw [ht, e]; exact State.fire_holding _
    · rw [ht, e]; exact State.holding_of_not_hold free
  | opens _ _ _ _ _ _ _ _ ht => exact State.holding_of_not_hold (by simp [ht])
  | collects _ _ _ _ _ _ _ _ ht => exact State.holding_of_not_hold (by simp [ht])
  | executes _ _ _ _ _ _ _ hx => exact hx.holding Phase.noConfusion
  | waits _ _ _ _ ht => exact State.holding_of_not_hold (by simpa [ht] using free)

theorem StepCase.holding {s t : State} (h : StepCase s t) (hs : s.Holding) : t.Holding := by
  by_cases hp : s.phase = .hold
  · obtain ⟨before, high⟩ := hs hp
    by_cases hr : s.agenda.head? = some .rst
    · rw [h.of_rst hr]
      exact State.holding_of_not_hold Phase.noConfusion
    · have not_past := h.now_le_deadline hp before
      rcases h.of_hold hp hr with ⟨-, -, a, e⟩ | frame
      · exact State.holding_of_not_hold (by simp [e])
      · rw [frame]
        exact fun _ => ⟨not_past, high⟩
  · exact h.holding_of_free hp

/-! ## The queue, the release timer and the pull-ups (R21, R24, R61, R98) -/

theorem State.receive_queueFits {s : State} (h : s.QueueFits) (b : Byte) :
    (s.receive b).QueueFits := by
  rcases s.receive_cases b with ⟨-, e⟩ | ⟨-, room, e⟩ | ⟨-, -, e⟩
  · rwa [e]
  · rw [e, State.QueueFits, State.setRxq_rxq, State.setRxq_cfg, List.length_append]
    exact room
  · rw [e]
    exact h

/-- Only the arrival of a byte makes the queue longer (R21). -/
theorem StepCase.queueFits {s t : State} (h : StepCase s t) (hs : s.QueueFits) : t.QueueFits := by
  have shorter : t.rxq.length ≤ s.rxq.length → t.QueueFits := fun le => by
    rw [State.QueueFits, h.cfg_eq]
    exact le.trans hs
  cases h with
  | arrives b rest _ ht => rw [ht]; exact State.receive_queueFits (s := s.setAgenda rest) hs b
  | pins _ _ _ _ ht => exact shorter (by simp [ht])
  | tick _ _ _ ht => exact shorter (by simp [ht])
  | reset _ _ ht => exact shorter (by simp [ht])
  | fall _ _ _ ht => exact shorter (by simp [ht])
  | sample _ _ _ ht => exact shorter (by simp [ht])
  | opens _ _ _ _ _ hq _ _ ht => exact shorter (by simp [ht, hq])
  | collects _ _ _ _ _ _ hq _ ht => exact shorter (by simp [ht, hq])
  | executes _ _ _ _ hq _ _ hx => exact shorter (by rw [hx.frame.rxq]; simp [hq])
  | waits _ _ _ _ ht => exact shorter (by simp [ht])

/-- Every row of the table leaves the timer unset while ARMED, and started in the past (R97 to
R101). -/
theorem State.sampleStep_timerOk {s : State} (hs : s.TimerOk) : s.sampleStep.TimerOk := by
  rcases s.sampleStep_cases with ⟨-, -, e⟩ | ⟨-, -, e⟩ | ⟨-, -, e⟩ | ⟨a, -, -, e⟩ |
    ⟨-, -, -, -, e⟩ | ⟨-, -, -, -, e⟩ <;> rw [e]
  · exact ⟨fun _ => rfl, fun v => by cases v⟩
  · exact hs
  · exact ⟨fun _ => rfl, fun v => by cases v⟩
  · exact ⟨fun armed => by simp [a] at armed, fun _ => le_rfl⟩
  · exact ⟨fun _ => rfl, fun v => by cases v⟩
  · exact hs

/-- Only a sample and a reset write ARM and the release timer (R97 to R101, R121). -/
theorem StepCase.timer_cases {s t : State} (h : StepCase s t) :
    (s.cfg.mode = .auto ∧ t = s.turnTaken.sampleStep) ∨ t = s.turnTaken.resetBlock ∨
    (t.arm = s.arm ∧ t.relValid = s.relValid ∧ t.relStart = s.relStart) := by
  cases h with
  | sample _ hmode _ ht => exact .inl ⟨hmode, ht⟩
  | reset rest hm ht =>
    right; left
    rw [ht, s.turnTaken_eq, State.turnTaken_agenda_cons hm]
  | arrives _ _ _ ht => right; right; simp [ht]
  | pins _ _ _ _ ht => right; right; simp [ht]
  | tick _ _ _ ht => right; right; simp [ht]
  | fall _ _ _ ht => right; right; simp [ht]
  | opens _ _ _ _ _ _ _ _ ht => right; right; simp [ht]
  | collects _ _ _ _ _ _ _ _ ht => right; right; simp [ht]
  | executes _ _ _ _ _ _ _ hx =>
    exact .inr (.inr ⟨hx.frame.arm, hx.frame.relValid, hx.frame.relStart⟩)
  | waits _ _ _ _ ht => right; right; simp [ht]

theorem StepCase.timerOk {s t : State} (h : StepCase s t) (hs : s.TimerOk) : t.TimerOk := by
  rcases h.timer_cases with ⟨-, e⟩ | e | ⟨arm, valid, start⟩
  · rw [e]
    exact State.sampleStep_timerOk (s := s.turnTaken) hs
  · rw [e]
    exact ⟨fun _ => rfl, fun valid => by cases valid⟩
  · obtain ⟨unset, past⟩ := hs
    rw [State.TimerOk, arm, valid, start]
    exact ⟨unset, fun v => (past v).trans h.now_le⟩

/-- Only a reset writes the pull-ups, with those of the polarity (R61, R121). -/
theorem StepCase.pullupsOk {s t : State} (h : StepCase s t) (hs : s.PullupsOk) : t.PullupsOk := by
  have same : t.pullupEn = s.pullupEn → t.PullupsOk := fun e => by
    rw [State.PullupsOk, e, h.cfg_eq]
    exact hs
  cases h with
  | arrives _ _ _ ht => exact same (by simp [ht])
  | pins _ _ _ _ ht => exact same (by simp [ht])
  | tick _ _ _ ht => exact same (by simp [ht])
  | reset _ _ ht => rw [ht]; rfl
  | fall _ _ _ ht => exact same (by simp [ht])
  | sample _ _ _ ht => exact same (by simp [ht])
  | opens _ _ _ _ _ _ _ _ ht => exact same (by simp [ht])
  | collects _ _ _ _ _ _ _ _ ht => exact same (by simp [ht])
  | executes _ _ _ _ _ _ _ hx => exact same hx.frame.pullupEn
  | waits _ _ _ _ ht => exact same (by simp [ht])

/-! ## The invariant -/

theorem StepCase.inv {s t : State} (h : StepCase s t) (hs : s.Inv) : t.Inv where
  build := h.cfg_eq ▸ hs.build
  framed := h.framed hs.framed
  holding := h.holding hs.holding
  queue := h.queueFits hs.queue
  timer := h.timerOk hs.timer
  pull := h.pullupsOk hs.pull

/-- Settles O53: each part of the invariant is kept, by the lemma of its own name. -/
theorem invariantKept : Obligations.InvariantKept := by
  unfold Obligations.InvariantKept
  exact fun s t inv h => (step_cases h).inv inv

theorem State.powerUp_inv {c : Config} (wf : c.wf = true) (level driven : Byte)
    (moves : List Move) : (State.powerUp c level driven moves).Inv where
  build := wf
  framed := State.framed_of_idle_or_hold (.inl rfl)
  holding := State.holding_of_not_hold Phase.noConfusion
  queue := Nat.zero_le _
  timer := ⟨fun _ => rfl, fun valid => by cases valid⟩
  pull := rfl

/-- Settles O54: `State.reset` is a power-up of the reference build. -/
theorem invariantAtPowerUp : Obligations.InvariantAtPowerUp := by
  unfold Obligations.InvariantAtPowerUp
  exact ⟨fun c level driven moves wf => State.powerUp_inv wf level driven moves,
    State.powerUp_inv (by decide) 0xFF 0x00 []⟩

/-! ## What the other mode owns (R29) -/

theorem State.unusedAtReset_cmd {s : State} (h : s.cfg.mode = .cmd) :
    s.UnusedAtReset ↔ s.arm = .armed ∧ s.relValid = false ∧ s.relStart = 0 := by
  rw [State.UnusedAtReset, h]

theorem State.unusedAtReset_auto {s : State} (h : s.cfg.mode = .auto) :
    s.UnusedAtReset ↔
      s.dur = Config.durReset ∧ s.rxq = [] ∧ s.rxOvf = false ∧ ∀ p, s.phase ≠ .args p := by
  rw [State.UnusedAtReset, h]

theorem State.powerUp_unusedAtReset (c : Config) (level driven : Byte) (moves : List Move) :
    (State.powerUp c level driven moves).UnusedAtReset := by
  cases hm : c.mode with
  | cmd => exact (State.unusedAtReset_cmd hm).mpr ⟨rfl, rfl, rfl⟩
  | auto => exact (State.unusedAtReset_auto hm).mpr ⟨rfl, rfl, rfl, fun _ => Phase.noConfusion⟩

/-- In AUTO mode no move writes `DUR`, `RXQ` or `RX_OVF` but a reset, and none enters ARGS (R29,
R75). -/
theorem StepCase.unusedAtReset_auto {s t : State} (h : StepCase s t) (hmode : s.cfg.mode = .auto)
    (hs : s.UnusedAtReset) : t.UnusedAtReset := by
  obtain ⟨dur, rxq, ovf, no_args⟩ := (State.unusedAtReset_auto hmode).mp hs
  rw [State.unusedAtReset_auto (h.cfg_eq ▸ hmode)]
  cases h with
  | arrives b rest _ ht =>
    rw [ht, State.receive_auto (s := s.setAgenda rest) hmode]
    exact ⟨dur, rxq, ovf, no_args⟩
  | pins _ _ _ _ ht => rw [ht]; exact ⟨dur, rxq, ovf, no_args⟩
  | tick _ _ _ ht => rw [ht]; exact ⟨dur, rxq, ovf, no_args⟩
  | reset _ _ ht => rw [ht]; exact ⟨rfl, rfl, ovf, fun _ => Phase.noConfusion⟩
  | fall _ _ _ ht => simp [ht, dur, rxq, ovf]
  | sample _ _ idle ht =>
    refine ⟨by simp [ht, dur], by simp [ht, rxq], by simp [ht, ovf], fun p => ?_⟩
    rcases s.turnTaken.sampleStep_fires_or_quiet with ⟨-, -, e⟩ | ⟨-, -, e⟩
    · simp [ht, e]
    · rw [ht, e]; exact no_args p
  | opens _ cmd _ _ _ _ _ _ _ => simp [hmode] at cmd
  | collects _ cmd _ _ _ _ _ _ _ => simp [hmode] at cmd
  | executes _ cmd _ _ _ _ _ _ => simp [hmode] at cmd
  | waits _ _ _ _ ht => rw [ht]; exact ⟨dur, rxq, ovf, no_args⟩

theorem StepCase.unusedAtReset {s t : State} (h : StepCase s t) (hs : s.UnusedAtReset) :
    t.UnusedAtReset := by
  cases hmode : s.cfg.mode with
  | auto => exact h.unusedAtReset_auto hmode hs
  | cmd =>
    obtain ⟨armed, unset, start⟩ := (State.unusedAtReset_cmd hmode).mp hs
    rw [State.unusedAtReset_cmd (h.cfg_eq ▸ hmode)]
    rcases h.timer_cases with ⟨auto, -⟩ | e | ⟨arm', valid', start'⟩
    · simp [hmode] at auto
    · rw [e]
      exact ⟨rfl, rfl, rfl⟩
    · exact ⟨arm'.trans armed, valid'.trans unset, start'.trans start⟩

/-- Settles O55: in CMD mode nothing samples, and in AUTO mode nothing is dispatched. -/
theorem unusedStateKeepsReset : Obligations.UnusedStateKeepsReset := by
  unfold Obligations.UnusedStateKeepsReset
  exact ⟨State.powerUp_unusedAtReset, fun s t hs h => (step_cases h).unusedAtReset hs⟩

/-! ## The lines of an AUTO block (R95) -/

theorem StepCase.onlyTriggerLine {s t : State} (h : StepCase s t) (hs : s.OnlyTriggerLine) :
    t.OnlyTriggerLine := by
  intro auto
  have hmode : s.cfg.mode = .auto := h.cfg_eq ▸ auto
  rw [h.cfg_eq]
  by_cases hr : s.agenda.head? = some .rst
  · rw [h.of_rst hr]
    exact .inl ⟨rfl, rfl⟩
  rcases hs hmode with ⟨idle, low⟩ | ⟨hold, mask, high⟩
  · rcases h.of_idle_auto hmode idle with ⟨-, e⟩ | ⟨-, reset⟩ | ⟨-, frame⟩
    · rcases s.turnTaken.sampleStep_fires_or_quiet with ⟨-, -, e'⟩ | ⟨-, -, e'⟩
      · right
        simp [e, e', low]
      · rw [e, e']
        exact .inl ⟨idle, low⟩
    · exact absurd reset hr
    · rw [frame]
      exact .inl ⟨idle, low⟩
  · rcases h.of_hold hold hr with ⟨-, -, a, e⟩ | frame
    · left
      simp [e, mask, high]
    · rw [frame]
      exact .inr ⟨hold, mask, high⟩

/-- Settles O56: a fire raises `TRIG_LINE` over lines that are low, and its fall lowers it. -/
theorem autoDrivesOnlyTriggerLine : Obligations.AutoDrivesOnlyTriggerLine := by
  unfold Obligations.AutoDrivesOnlyTriggerLine
  exact ⟨fun c level driven moves _ => .inl ⟨rfl, rfl⟩,
    fun s t hs h => (step_cases h).onlyTriggerLine hs⟩

/-! ## The output trace (R17, R26) -/

/-- No entry of an ordered trace is later than now. -/
theorem State.TraceOk.le_now {s : State} (hs : s.TraceOk) :
    ∀ entry ∈ s.outTrace, entry.1 ≤ s.now := by
  obtain ⟨⟨earlier, time, trace, past⟩, ordered⟩ := hs
  rw [trace] at ordered ⊢
  obtain ⟨-, -, last⟩ := List.pairwise_append.mp ordered
  intro entry hmem
  rcases List.mem_append.mp hmem with before | is_last
  · exact (last entry before _ (List.mem_singleton_self _)).trans past
  · rw [List.mem_singleton.mp is_last]
    exact past

theorem StepCase.traceOk {s t : State} (h : StepCase s t) (hs : s.TraceOk) : t.TraceOk := by
  have not_later := hs.le_now
  obtain ⟨⟨earlier, time, trace, past⟩, ordered⟩ := hs
  rcases h.out_cases with ⟨out, same⟩ | recorded
  · rw [State.TraceOk, out, same]
    exact ⟨⟨earlier, time, trace, past.trans h.now_le⟩, ordered⟩
  · refine ⟨⟨s.outTrace, s.now, recorded, h.now_le⟩, ?_⟩
    rw [recorded, List.pairwise_append]
    refine ⟨ordered, List.pairwise_singleton _ _, fun entry hmem last is_last => ?_⟩
    rw [List.mem_singleton.mp is_last]
    exact not_later entry hmem

/-- Settles O57: a move records at most one entry, at this instant, of the value it leaves. -/
theorem outTraceOrdered : Obligations.OutTraceOrdered := by
  unfold Obligations.OutTraceOrdered
  exact ⟨fun c level driven moves => ⟨⟨[], 0, rfl, le_rfl⟩, List.pairwise_singleton _ _⟩,
    fun s t hs h => (step_cases h).traceOk hs⟩

end Sys2Proof.Machine
end

section
/-! SUPPORT. The observation state (10_state.md section 5): every command and every move does the
same where `OUTTRACE`, `TXLOG` and `RX_OVF` are wiped out first. -/

namespace Sys2Proof.Machine

namespace State

/-- The fall of an AUTO block with `AUTO_LOG` (R82, R104). -/
theorem fallStep_of_log {s : State} (logs : s.cfg.mode = .auto ∧ s.cfg.autoLog = true) :
    s.fallStep = ((s.outWrite (s.out &&& ~~~ s.hmask)).setPhase .idle).emitLogLine :=
  if_pos logs

/-- The fall of any other block (R82). -/
theorem fallStep_of_no_log {s : State} (quiet : ¬ (s.cfg.mode = .auto ∧ s.cfg.autoLog = true)) :
    s.fallStep = (s.outWrite (s.out &&& ~~~ s.hmask)).setPhase .idle :=
  if_neg quiet

/-- A fall does not read the observation state. -/
theorem fallStep_withoutObservation (s : State) :
    s.withoutObservation.fallStep.withoutObservation = s.fallStep.withoutObservation := by
  by_cases logs : s.cfg.mode = .auto ∧ s.cfg.autoLog = true
  · rw [fallStep_of_log logs, fallStep_of_log (s := s.withoutObservation) logs]
    rfl
  · rw [fallStep_of_no_log logs, fallStep_of_no_log (s := s.withoutObservation) logs]
    rfl

/-- An arriving byte is queued or lost whatever the observation state is. -/
theorem receive_withoutObservation (s : State) (b : Byte) :
    (s.withoutObservation.receive b).withoutObservation = (s.receive b).withoutObservation := by
  rcases s.receive_cases b with ⟨hm, e⟩ | ⟨hm, room, e⟩ | ⟨hm, full, e⟩
  · rw [e, receive_auto (s := s.withoutObservation) hm]
    rfl
  · rw [e, receive_room (s := s.withoutObservation) hm room]
    rfl
  · rw [e, receive_full (s := s.withoutObservation) hm full]
    rfl

/-- A sample does not read the observation state: it is in the same row of the table. -/
theorem sampleStep_withoutObservation (s : State) :
    s.withoutObservation.sampleStep.withoutObservation = s.sampleStep.withoutObservation := by
  rcases s.sampleStep_cases with ⟨a, m, e⟩ | ⟨a, m, e⟩ | ⟨a, m, e⟩ | ⟨a, m, v, e⟩ |
    ⟨a, m, v, ripe, e⟩ | ⟨a, m, v, early, e⟩
  · rw [e, sampleStep_armed_pressed (s := s.withoutObservation) a m]
    rfl
  · rw [e, sampleStep_armed_released (s := s.withoutObservation) a m]
    rfl
  · rw [e, sampleStep_disarmed_pressed (s := s.withoutObservation) a m]
    rfl
  · rw [e, sampleStep_release_starts (s := s.withoutObservation) a m v]
    rfl
  · rw [e, sampleStep_rearms (s := s.withoutObservation) a m v ripe]
    rfl
  · rw [e, sampleStep_keeps_waiting (s := s.withoutObservation) a m v early]
    rfl

end State

/-- A command does not read the observation state. -/
theorem ExecCase.withoutObservation {i : Instr} {s t : State} (h : ExecCase i s t) :
    ∃ u, ExecCase i s.withoutObservation u ∧ u.withoutObservation = t.withoutObservation := by
  cases h with
  | duration d hi ht => exact ⟨_, .duration d hi rfl, by rw [ht]; rfl⟩
  | pulse m hi ht => exact ⟨_, .pulse m hi rfl, by rw [ht]; rfl⟩
  | raise m hi ht => exact ⟨_, .raise m hi rfl, by rw [ht]; rfl⟩
  | lower m hi ht => exact ⟨_, .lower m hi rfl, by rw [ht]; rfl⟩
  | answer hi ht => exact ⟨_, .answer hi rfl, by rw [ht]; rfl⟩
  | nothing hi ht => exact ⟨_, .nothing hi rfl, by rw [ht]; rfl⟩

/-- A move does not read the observation state (R27). -/
theorem StepCase.withoutObservation {s t : State} (h : StepCase s t) :
    ∃ u, StepCase s.withoutObservation u ∧ u.withoutObservation = t.withoutObservation := by
  cases h with
  | arrives b rest hm ht =>
    exact ⟨_, .arrives b rest hm rfl,
      by rw [ht]; exact (s.setAgenda rest).receive_withoutObservation b⟩
  | pins l d rest hm ht => exact ⟨_, .pins l d rest hm rfl, by rw [ht]; rfl⟩
  | tick rest hm hd ht => exact ⟨_, .tick rest hm hd rfl, by rw [ht]; rfl⟩
  | reset rest hm ht => exact ⟨_, .reset rest hm rfl, by rw [ht]; rfl⟩
  | fall a hd ha ht =>
    exact ⟨_, .fall a hd ha rfl, by rw [ht]; exact (s.setAgenda a).fallStep_withoutObservation⟩
  | sample hc hmode hp ht =>
    exact ⟨_, .sample hc hmode hp rfl,
      by rw [ht]; exact s.turnTaken.sampleStep_withoutObservation⟩
  | opens hc hmode hp b q hq n hn ht =>
    exact ⟨_, .opens hc hmode hp b q hq n hn rfl, by rw [ht]; rfl⟩
  | collects hc hmode p hp b q hq hn ht =>
    exact ⟨_, .collects hc hmode p hp b q hq hn rfl, by rw [ht]; rfl⟩
  | executes hc hmode b q hq i hsrc hx =>
    obtain ⟨u, hu, same⟩ := hx.withoutObservation
    exact ⟨u, .executes hc hmode b q hq i hsrc hu, same⟩
  | waits hc hd hf hs ht => exact ⟨_, .waits hc hd hf hs rfl, by rw [ht]; rfl⟩

/-- Two states that differ in the observation state alone answer with two such states. -/
theorem step_withoutObservation {s s' t : State}
    (same : s.withoutObservation = s'.withoutObservation) (h : step s = .next t) :
    ∃ t', step s' = .next t' ∧ t.withoutObservation = t'.withoutObservation := by
  obtain ⟨t', ht', h'⟩ := step_next s'
  obtain ⟨u, hu, eu⟩ := (step_cases h).withoutObservation
  obtain ⟨u', hu', eu'⟩ := h'.withoutObservation
  have one : u = u' := by
    rw [same] at hu
    exact Host.Outcome.next.inj (hu.step_eq.symm.trans hu'.step_eq)
  exact ⟨t', ht', by rw [← eu, ← eu', one]⟩

/-- Settles O59, by induction on the number of moves. -/
theorem observationStateNeverRead : Obligations.ObservationStateNeverRead := by
  unfold Obligations.ObservationStateNeverRead
  intro k
  induction k with
  | zero =>
    intro s s' t same h
    rw [State.after_zero, Option.some.injEq] at h
    exact ⟨s', s'.after_zero, h ▸ same⟩
  | succ k ih =>
    intro s s' t same h
    obtain ⟨u, hu, rest⟩ := State.after_succ_some h
    obtain ⟨u', hu', same'⟩ := step_withoutObservation same hu
    obtain ⟨t', ht', same''⟩ := ih u u' t same' rest
    exact ⟨t', (State.after_succ k hu').trans ht', same''⟩

end Sys2Proof.Machine
end

section
/-! SUPPORT. Every admitted run (41_dispatcher.md R79, R80): time grows, holds end, bytes are taken
and inputs are sampled. Each "until" is an induction along the run up to the first move that ends
it. -/

namespace Sys2Proof.Machine

/-! ## Until -/

/-- What holds at `n` and goes on as long as it is not ended, holds until it is ended, if it cannot
go on for ever without an end. -/
theorem exists_until {P Q : Nat → Prop} {n : Nat} (start : P n)
    (goes_on : ∀ k, n ≤ k → P k → ¬ Q k → P (k + 1))
    (ends : (∀ k, n ≤ k → P k) → ∃ k, n ≤ k ∧ Q k) :
    ∃ k, n ≤ k ∧ (∀ j, n ≤ j → j ≤ k → P j) ∧ Q k := by
  by_contra never
  have always : ∀ k, n ≤ k → ∀ j, n ≤ j → j ≤ k → P j := by
    intro k hk
    induction k, hk using Nat.le_induction with
    | base => exact fun j hn hj => Nat.le_antisymm hn hj ▸ start
    | succ k hk ih =>
      intro j hn hj
      rcases Nat.lt_or_eq_of_le hj with before | rfl
      · exact ih j hn (Nat.le_of_lt_succ before)
      · exact goes_on k hk (ih k hk le_rfl) fun ended => never ⟨k, hk, ih, ended⟩
  obtain ⟨k, hk, ended⟩ := ends fun k hk => always k hk k hk le_rfl
  exact never ⟨k, hk, always k hk, ended⟩

/-! ## Which step is enabled does not depend on the moves to come -/

namespace State

@[simp] theorem setAgenda_fallDue (s : State) (a : List Move) :
    (s.setAgenda a).fallDue = s.fallDue := rfl

end State

/-- In CMD mode only a dispatching turn starts a pulse (R66, R69). -/
theorem StepCase.free_of_no_dispatch {s t : State} (h : StepCase s t) (hmode : s.cfg.mode = .cmd)
    (free : s.phase ≠ .hold) (none_taken : ¬ (s.ctrlTurn = true ∧ s.dispatchEnabled = true)) :
    t.phase ≠ .hold := by
  cases h with
  | arrives _ _ _ ht => simpa [ht] using free
  | pins _ _ _ _ ht => simpa [ht] using free
  | tick _ _ _ ht => simpa [ht] using free
  | reset _ _ ht => simp [ht]
  | fall _ _ _ ht => simp [ht]
  | sample _ auto _ _ => simp [hmode] at auto
  | opens _ _ _ _ _ _ _ _ ht => simp [ht]
  | collects _ _ _ _ _ _ _ _ ht => simp [ht]
  | executes hc _ b q hq _ _ _ =>
    have enabled := s.dispatchEnabled_iff.mpr ⟨hmode, free, by simp [hq]⟩
    exact absurd ⟨hc, enabled⟩ none_taken
  | waits _ _ _ _ ht => simpa [ht] using free

namespace Run

variable {r : Run}

/-! ## The moves of a run -/

/-- The move of a run is the one its state announces to `step`. -/
theorem stepCase (lawful : r.lawful) (k : Nat) :
    StepCase ((r.state k).setAgenda [r.move k]) (r.state (k + 1)) := step_cases (lawful k).2

theorem move_eq_ctrl {k : Nat} (h : ((r.state k).setAgenda [r.move k]).ctrlTurn = true) :
    r.move k = .ctrl := by
  by_contra other
  rw [State.ctrlTurn_of_event rfl other] at h
  cases h

theorem head_ne_rst {k : Nat} (h : r.move k ≠ .rst) :
    ((r.state k).setAgenda [r.move k]).agenda.head? ≠ some .rst := by
  simpa using h

/-- A tick of a run is made where no fall is due (R78). -/
theorem fallDue_of_tick (lawful : r.lawful) {k : Nat} (tick : r.move k = .tick) :
    (r.state k).fallDue = false := by
  have possible := (lawful k).1
  rw [tick] at possible
  simpa [State.admits, State.tickEnabled] using possible

/-- What every move keeps, whatever moves are announced, holds all along a run that starts with
it. -/
theorem keeps_of_stepCase (lawful : r.lawful) (P : State → Prop) (start : P (r.state 0))
    (announced : ∀ s a, P s → P (s.setAgenda a)) (kept : ∀ s t, P s → StepCase s t → P t) :
    ∀ k, P (r.state k) :=
  keeps lawful P start fun s m t hs _ made => kept _ t (announced s [m] hs) (step_cases made)

theorem inv (started : r.startsAtPowerUp) (lawful : r.lawful) (k : Nat) : (r.state k).Inv := by
  obtain ⟨c, level, driven, wf, start⟩ := started
  refine keeps_of_stepCase lawful State.Inv (start ▸ State.powerUp_inv wf level driven [])
    (fun s a hs => ?_) (fun s t hs h => h.inv hs) k
  exact ⟨hs.build, hs.framed, hs.holding, hs.queue, hs.timer, hs.pull⟩

theorem unusedAtReset (started : r.startsAtPowerUp) (lawful : r.lawful) (k : Nat) :
    (r.state k).UnusedAtReset := by
  obtain ⟨c, level, driven, -, start⟩ := started
  exact keeps_of_stepCase lawful State.UnusedAtReset
    (start ▸ State.powerUp_unusedAtReset c level driven []) (fun _ _ hs => hs)
    (fun s t hs h => h.unusedAtReset hs) k

/-- The build is the same all along a run (R15). -/
theorem cfg_eq (lawful : r.lawful) {n k : Nat} (hk : n ≤ k) :
    (r.state k).cfg = (r.state n).cfg := by
  induction k, hk using Nat.le_induction with
  | base => rfl
  | succ k _ ih => exact (stepCase lawful k).cfg_eq.trans ih

/-! ## Time (R78, R79) -/

theorem now_mono (lawful : r.lawful) : Monotone fun k => (r.state k).now :=
  monotone_nat_of_le_succ fun k => (stepCase lawful k).now_le

theorem now_succ_of_tick (lawful : r.lawful) {k : Nat} (tick : r.move k = .tick) :
    (r.state (k + 1)).now = (r.state k).now + 1 := by
  have h := (stepCase lawful k).step_eq
  rw [tick, step_tick (s := (r.state k).setAgenda [.tick]) rfl (fallDue_of_tick lawful tick)] at h
  rw [← Host.Outcome.next.inj h]
  rfl

/-- Time grows beyond every bound: each tick adds 1, and ticks recur. -/
theorem now_unbounded (lawful : r.lawful) (nonZeno : r.nonZeno) (time : Nat) :
    ∃ k, time ≤ (r.state k).now := by
  induction time with
  | zero => exact ⟨0, Nat.zero_le _⟩
  | succ time ih =>
    obtain ⟨n, reached⟩ := ih
    obtain ⟨k, hk, tick⟩ := nonZeno n
    have later : (r.state n).now ≤ (r.state k).now := now_mono lawful hk
    exact ⟨k + 1, by rw [now_succ_of_tick lawful tick]; omega⟩

/-! ## Holds (R74, R82) -/

/-- At index `k` the pulse that state `n` holds is held as it was. -/
def HeldSince (r : Run) (n k : Nat) : Prop :=
  (r.state k).phase = .hold ∧ (r.state k).deadline = (r.state n).deadline ∧
    (r.state k).out = (r.state n).out ∧ (r.state k).hmask = (r.state n).hmask

/-- The move at index `k` ends the pulse that state `n` holds: a reset, or its fall at its
deadline. -/
def EndsHold (r : Run) (n k : Nat) : Prop :=
  r.move k = .rst ∨
    (r.takes .fall k ∧ (r.state k).now = (r.state n).deadline ∧ (r.state (k + 1)).phase = .idle ∧
      (r.state (k + 1)).out = (r.state n).out &&& ~~~ (r.state n).hmask)

theorem HeldSince.succ (started : r.startsAtPowerUp) (lawful : r.lawful) {n k : Nat}
    (held : r.HeldSince n k) (goes_on : ¬ r.EndsHold n k) : r.HeldSince n (k + 1) := by
  obtain ⟨hold, deadline, out, hmask⟩ := held
  have no_rst : r.move k ≠ .rst := fun rst => goes_on (.inl rst)
  rcases (stepCase lawful k).of_hold hold (head_ne_rst no_rst) with ⟨due, turn, a, e⟩ | frame
  · rw [State.setAgenda_fallDue] at due
    have falls : r.takes .fall k := by
      refine ⟨due, ?_⟩
      rcases turn with tick | turn
      · have free := fallDue_of_tick lawful (k := k) (by simpa using tick)
        simp [due] at free
      · exact move_eq_ctrl turn
    have not_past := ((inv started lawful k).holding hold).1
    have reached := ((r.state k).fallDue_iff.mp due).2
    refine absurd (.inr ⟨falls, ?_, by simp [e], by simp [e, out, hmask]⟩) goes_on
    rw [← deadline]
    exact Nat.le_antisymm not_past reached
  · rw [HeldSince, frame]
    exact ⟨hold, deadline, out, hmask⟩

/-- Every hold goes on until it ends: time does not pass its deadline while it lasts. -/
theorem hold_ends (started : r.startsAtPowerUp) (lawful : r.lawful) (nonZeno : r.nonZeno) {n : Nat}
    (hold : (r.state n).phase = .hold) :
    ∃ k, n ≤ k ∧ (∀ j, n ≤ j → j ≤ k → r.HeldSince n j) ∧ r.EndsHold n k := by
  refine exists_until ⟨hold, rfl, rfl, rfl⟩ (fun k _ held => held.succ started lawful) ?_
  intro forever
  obtain ⟨k, past⟩ := now_unbounded lawful nonZeno ((r.state n).deadline + 1)
  obtain ⟨still, deadline, -, -⟩ := forever (max n k) (le_max_left n k)
  have not_past := ((inv started lawful (max n k)).holding still).1
  have later : (r.state k).now ≤ (r.state (max n k)).now := now_mono lawful (le_max_right n k)
  omega

/-- After a hold that ends the block is at IDLE. -/
theorem EndsHold.idle (lawful : r.lawful) {n k : Nat} (ends : r.EndsHold n k) :
    (r.state (k + 1)).phase = .idle := by
  rcases ends with rst | ⟨-, -, idle, -⟩
  · rw [(stepCase lawful k).of_rst (by simpa using rst)]
    rfl
  · exact idle

/-! ## Bytes (R69) -/

/-- The move at index `k` takes a byte, or drops all bytes. -/
def TakesOrDrops (r : Run) (k : Nat) : Prop := r.move k = .rst ∨ r.takes .dispatch k

theorem takes_dispatch {k : Nat}
    (turn : ((r.state k).setAgenda [r.move k]).ctrlTurn = true)
    (enabled : ((r.state k).setAgenda [r.move k]).dispatchEnabled = true) :
    r.takes .dispatch k := ⟨enabled, move_eq_ctrl turn⟩

/-- The bytes in `RXQ` stay, in order, as long as none is taken and no reset drops them (R68). -/
theorem rxq_prefix_succ (lawful : r.lawful) {k : Nat} (goes_on : ¬ r.TakesOrDrops k) :
    (r.state k).rxq <+: (r.state (k + 1)).rxq := by
  rcases (stepCase lawful k).rxq_cases with ⟨turn, enabled, -⟩ | ⟨-, ⟨kept, -⟩ | rst⟩
  · exact absurd (.inr (takes_dispatch turn enabled)) goes_on
  · exact kept
  · exact absurd (.inl (by simpa using rst)) goes_on

/-- In CMD mode, from a point on at which no pulse is held, none starts before a byte is taken. -/
theorem free_of_no_dispatch (lawful : r.lawful) {m : Nat} (hmode : (r.state m).cfg.mode = .cmd)
    (free : (r.state m).phase ≠ .hold) (none_taken : ∀ k, m ≤ k → ¬ r.takes .dispatch k) {k : Nat}
    (hk : m ≤ k) : (r.state k).phase ≠ .hold := by
  induction k, hk using Nat.le_induction with
  | base => exact free
  | succ k hk ih =>
    have cmd : (r.state k).cfg.mode = .cmd := cfg_eq lawful hk ▸ hmode
    exact (stepCase lawful k).free_of_no_dispatch cmd ih fun ⟨turn, enabled⟩ =>
      none_taken k hk (takes_dispatch turn enabled)

/-- In CMD mode bytes cannot wait for ever: a hold that blocks them ends, and from then on dispatch
is enabled until it is taken. -/
theorem bytes_taken (started : r.startsAtPowerUp) (lawful : r.lawful) (fair : r.weaklyFair)
    (nonZeno : r.nonZeno) {n : Nat} (hmode : (r.state n).cfg.mode = .cmd)
    (waiting : ∀ k, n ≤ k → (r.state k).rxq ≠ []) : ∃ k, n ≤ k ∧ r.TakesOrDrops k := by
  by_contra never
  have none_taken : ∀ k, n ≤ k → ¬ r.takes .dispatch k := fun k hk taken =>
    never ⟨k, hk, .inr taken⟩
  obtain ⟨m, hm, free⟩ : ∃ m, n ≤ m ∧ (r.state m).phase ≠ .hold := by
    by_cases hold : (r.state n).phase = .hold
    · obtain ⟨k, hk, -, ends⟩ := hold_ends started lawful nonZeno hold
      exact ⟨k + 1, by omega, by simp [ends.idle lawful]⟩
    · exact ⟨n, le_rfl, hold⟩
  have cmd : (r.state m).cfg.mode = .cmd := cfg_eq lawful hm ▸ hmode
  have enabled : ∀ k, m ≤ k → (r.state k).dispatchEnabled = true := fun k hk =>
    (r.state k).dispatchEnabled_iff.mpr ⟨cfg_eq lawful hk ▸ cmd,
      free_of_no_dispatch lawful cmd free (fun k hk => none_taken k (hm.trans hk)) hk,
      waiting k (hm.trans hk)⟩
  obtain ⟨k, hk, taken⟩ := fair .dispatch m enabled
  exact none_taken k (hm.trans hk) taken

/-! ## Samples (R96) -/

/-- In AUTO mode, from a point on at IDLE, the block stays there as long as it does not sample. -/
theorem idle_of_no_sample (lawful : r.lawful) {m : Nat} (hmode : (r.state m).cfg.mode = .auto)
    (idle : (r.state m).phase = .idle) (none_taken : ∀ k, m ≤ k → ¬ r.takes .sample k) {k : Nat}
    (hk : m ≤ k) : (r.state k).phase = .idle := by
  induction k, hk using Nat.le_induction with
  | base => exact idle
  | succ k hk ih =>
    have auto : (r.state k).cfg.mode = .auto := cfg_eq lawful hk ▸ hmode
    rcases (stepCase lawful k).of_idle_auto auto ih with ⟨turn, -⟩ | ⟨-, rst⟩ | ⟨-, frame⟩
    · have taken : r.takes .sample k :=
        ⟨(r.state k).sampleEnabled_iff.mpr ⟨auto, ih⟩, move_eq_ctrl turn⟩
      exact absurd taken (none_taken k hk)
    · rw [(stepCase lawful k).of_rst rst]
      rfl
    · rw [frame]
      exact ih

/-- In AUTO mode the inputs are sampled again and again: a hold ends, and at IDLE the sample is
enabled until it is taken. -/
theorem samples_recur (started : r.startsAtPowerUp) (lawful : r.lawful) (fair : r.weaklyFair)
    (nonZeno : r.nonZeno) {n : Nat} (hmode : (r.state n).cfg.mode = .auto) :
    ∃ k, n ≤ k ∧ r.takes .sample k := by
  by_contra never
  have none_taken : ∀ k, n ≤ k → ¬ r.takes .sample k := fun k hk taken => never ⟨k, hk, taken⟩
  obtain ⟨m, hm, idle⟩ : ∃ m, n ≤ m ∧ (r.state m).phase = .idle := by
    cases hp : (r.state n).phase with
    | idle => exact ⟨n, le_rfl, hp⟩
    | hold =>
      obtain ⟨k, hk, -, ends⟩ := hold_ends started lawful nonZeno hp
      exact ⟨k + 1, by omega, ends.idle lawful⟩
    | args p =>
      obtain ⟨-, -, -, no_args⟩ :=
        (State.unusedAtReset_auto hmode).mp (unusedAtReset started lawful n)
      exact absurd hp (no_args p)
  have auto : (r.state m).cfg.mode = .auto := cfg_eq lawful hm ▸ hmode
  have enabled : ∀ k, m ≤ k → (r.state k).sampleEnabled = true := fun k hk =>
    (r.state k).sampleEnabled_iff.mpr ⟨cfg_eq lawful hk ▸ auto,
      idle_of_no_sample lawful auto idle (fun k hk => none_taken k (hm.trans hk)) hk⟩
  obtain ⟨k, hk, taken⟩ := fair .sample m enabled
  exact none_taken k (hm.trans hk) taken

end Run

/-- Settles O60: time by the ticks that recur, holds by time, bytes and samples by fairness once no
hold blocks them. -/
theorem everyAdmittedRunProgresses : Obligations.EveryAdmittedRunProgresses := by
  unfold Obligations.EveryAdmittedRunProgresses
  rintro r ⟨started, lawful, fair, nonZeno⟩
  refine ⟨Run.now_unbounded lawful nonZeno, fun n hold => ?_, fun n hmode waiting => ?_,
    fun n hmode => Run.samples_recur started lawful fair nonZeno hmode⟩
  · obtain ⟨k, hk, held, ends⟩ := Run.hold_ends started lawful nonZeno hold
    exact ⟨k, hk, fun j hn hj => (held j hn hj).1, ends⟩
  · refine exists_until (P := fun k => (r.state n).rxq <+: (r.state k).rxq) (Q := r.TakesOrDrops)
      List.prefix_rfl (fun k _ kept goes_on => kept.trans (Run.rxq_prefix_succ lawful goes_on)) ?_
    intro forever
    exact Run.bytes_taken started lawful fair nonZeno hmode fun k hk none_left =>
      waiting (List.prefix_nil.mp (none_left ▸ forever k hk))

end Sys2Proof.Machine
end
